-- ==== Sys2Proof/Word.lean ====
section
/-! DEFINITION. The word types of PFCFB (10_state.md R37) and the phase names (R21). -/

namespace Sys2Proof

/-- One byte of the frame, `u8` (00_scope.md R7). -/
abbrev Byte := BitVec 8

/-- One quantum, one checksum word, or the checksum: `u16` (00_scope.md R7). -/
abbrev Half := BitVec 16

/-- The eight quantum registers `Q[0]`..`Q[7]`, 16 bits each (10_state.md R23). -/
abbrev Quanta := Vector (BitVec 16) 8

/-- The eight quanta at zero. -/
def Quanta.zero : Quanta := Vector.replicate 8 0#16

/-- The eight values of the phase register `PH` (10_state.md R21). Their codes stand in Machine/Fetch.lean. -/
inductive Phase where
  | idle | build | pad | sum | fold | cpl | append | done
deriving DecidableEq, Repr

end Sys2Proof
end

