-- ==== Sys2Proof/Config.lean ====
section
/-! DEFINITION. What is fixed for one PFCFB: the constants and the two named parameters of 00_scope.md R6, and the
two values the spec leaves open (93_implementation_defined.md U4, U5). -/

namespace Sys2Proof.Config

/-- `FIELDS_LEN`: bytes in FrameFields (00_scope.md R6, 30_encoding.md R81). -/
def fieldsLen : Nat := 34

/-- `CSUM_LEN`: bytes of the checksum field (00_scope.md R6). -/
def csumLen : Nat := 2

/-- `DST_MAC`, `01:80:C2:00:00:01` (30_encoding.md R82). -/
def dstMac : List Byte := [0x01#8, 0x80#8, 0xC2#8, 0x00#8, 0x00#8, 0x01#8]

/-- `SRC_MAC`, `01:02:03:04:05:06` (30_encoding.md R83). -/
def srcMac : List Byte := [0x01#8, 0x02#8, 0x03#8, 0x04#8, 0x05#8, 0x06#8]

/-- `ETHERTYPE` (30_encoding.md R84). -/
def ethertype : Half := 0x8808#16

/-- `OPCODE`, a field of the frame and not an operation code (30_encoding.md R85). -/
def opcode : Half := 0x0101#16

/-- The two values of the named parameter `CSUM_ORDER` (00_scope.md R6, 20_memory.md R53). -/
inductive CsumOrder where
  | lowFirst | highFirst
deriving DecidableEq, Repr

/-- The two named parameters of 00_scope.md R6. `PAD_LEN` is held as half its value, because it "must be even", and
below 46, because `34 + PAD_LEN + 2` may not exceed `2^7 - 1` (43_padder.md R183): so every value is a legal one. -/
structure Params where
  padWords  : Fin 46
  csumOrder : CsumOrder
deriving DecidableEq, Repr

/-- The values "this hardware takes": `PAD_LEN` = 26, `CSUM_ORDER` = `low_first` (00_scope.md R6). -/
def Params.spec : Params := { padWords := 13, csumOrder := .lowFirst }

/-- `PAD_LEN` (00_scope.md R6). -/
def Params.padLen (p : Params) : Nat := 2 * p.padWords.val

/-- `PAD_TARGET = FIELDS_LEN + PAD_LEN` (00_scope.md R6). -/
def Params.padTarget (p : Params) : Nat := fieldsLen + p.padLen

/-- `WIRE_LEN = PAD_TARGET + CSUM_LEN` (00_scope.md R6). -/
def Params.wireLen (p : Params) : Nat := p.padTarget + csumLen

/-- `N_WORDS = PAD_TARGET / 2` (00_scope.md R6). -/
def Params.nWords (p : Params) : Nat := p.padTarget / 2

/-- FREE VALUE: `rd_data_o` of the n-th read with `rd_valid_o` = 0, "any 8-bit value ..., never ... a fixed value"
(40_sequencer_and_host.md R116, 93_implementation_defined.md U4). Log entry 4. -/
opaque freeReadData : Nat → Byte

/-- FREE VALUE: what byte `k` of `FB` holds after its contents became unspecified for the n-th time, while nothing has
written it: `freeFrameByte n k` (10_state.md R27, R34, 93_implementation_defined.md U5). Log entries 3, 5. -/
opaque freeFrameByte : Nat → Nat → Byte

end Sys2Proof.Config
end

