-- ==== Sys2Proof/Syntax.lean ====
section
/-! DEFINITION. The eleven operations of PFCFB (30_encoding.md R91): this hardware's instructions, one constructor per row
of opcode_table.json. -/

namespace Sys2Proof

inductive Instr where
  /-- `RESET`, `hv` = `1s`; `s` is the ignored `start_i` (40_sequencer_and_host.md R111). -/
  | reset (s : Bool)
  /-- `START`, `hv` = `01`, with its operands `enable_i` and `quantum_i[0..7]` (40_sequencer_and_host.md R112). -/
  | start (en : BitVec 8) (q : Quanta)
  /-- `READ`, the frame offset on `rd_addr_i` (40_sequencer_and_host.md R116). -/
  | read (a : BitVec 6)
  /-- `IDLE`, phase 000 (40_sequencer_and_host.md R114). -/
  | idle
  /-- `BUILD`, phase 001 (41_builder.md R140). -/
  | build
  /-- `PAD`, phase 010 (43_padder.md R180). -/
  | pad
  /-- `SUM`, phase 011 (42_checksum.md R161). -/
  | sum
  /-- `FOLD`, phase 100 (42_checksum.md R162). -/
  | fold
  /-- `CPL`, phase 101 (42_checksum.md R163). -/
  | cpl
  /-- `APPEND`, phase 110 (44_wireframe.md R190). -/
  | append
  /-- `DONE`, phase 111 (40_sequencer_and_host.md R115). -/
  | done
deriving DecidableEq, Repr

end Sys2Proof
end

