-- ==== Sys2Proof/Machine/State.lean ====
section
/-! DEFINITION. The state of PFCFB. `Block` has exactly the seven items of 10_state.md R20; `State` puts beside it what the
model itself needs (the parameters, the environment's coming stimuli, the last observation, two counters for free
values). -/

namespace Sys2Proof.Machine

/-- The frame buffer `FB` as address and byte pairs (20_memory.md R50). The canonical form, `Memory.wf`, is in
Machine/Ops.lean. -/
abbrev Memory := List Host.Cell

/-- What one step samples on the input ports (10_state.md R29), and whether the implementation spends the step waiting
inside a busy phase (40_sequencer_and_host.md R120). -/
structure StepInput where
  rst     : Bool
  start   : Bool
  enable  : BitVec 8
  quantum : Quanta
  stall   : Bool
deriving DecidableEq, Repr

/-- One thing the environment does (40_sequencer_and_host.md R122). -/
inductive Stimulus where
  /-- A step of R110 with these port values. -/
  | step (p : StepInput)
  /-- The Transmitter puts this address on `rd_addr_i` and looks at the read port (R116), between two steps. -/
  | sample (a : BitVec 6)
deriving DecidableEq, Repr

/-- What a `READ` showed: the address, `rd_valid_o`, `rd_data_o` (10_state.md R30). -/
structure ReadSample where
  addr  : BitVec 6
  valid : Bool
  data  : Byte
deriving DecidableEq, Repr

/-- The complete architectural state of the block: exactly the seven items of 10_state.md R20. -/
structure Block where
  /-- `PH`, the phase register (10_state.md R21). -/
  ph : Phase
  /-- `EN`, the latched enable flags (R22). -/
  en : BitVec 8
  /-- `Q[0..7]`, the latched quanta (R23). -/
  q : Quanta
  /-- `WP`, the write pointer, 7 bits (R24). -/
  wp : BitVec 7
  /-- `ACC`, the checksum accumulator (R25). -/
  acc : BitVec 32
  /-- `CSUM`, the checksum result (R26). -/
  csum : BitVec 16
  /-- `FB`, the frame buffer (R27). -/
  fb : Memory
deriving DecidableEq, Repr

/-- The block and its surroundings: what a step reads that is no state of the block. -/
structure State extends Block where
  /-- MODEL'S OWN: the two named parameters of 00_scope.md R6. No operation writes it (log entry 8). -/
  params : Config.Params
  /-- MODEL'S OWN: what the environment does next, first thing first; after the last, quiet ports (log entry 1). -/
  inputs : List Stimulus
  /-- MODEL'S OWN: what the last `READ` showed, if any (log entry 2). -/
  lastRead : Option ReadSample
  /-- MODEL'S OWN: how many free values `rd_data_o` has taken (log entry 4). -/
  draws : Nat
  /-- MODEL'S OWN: how often the contents of the frame buffer became unspecified as a whole (log entries 3, 5). -/
  fbEpoch : Nat
deriving DecidableEq, Repr

/-- Why the machine stops with a fault: never. "The block raises no synchronous exception. No operation ... can fault,
trap or abort, for any state and any input" (60_exceptions.md R210): nothing raises a fault, so there is no
constructor. -/
inductive Fault where
deriving DecidableEq, Repr

/-- Why the model gives a step no meaning. -/
inductive Refusal where
  /-- An operation without a meaning in this model: raised by an arm of `exec` only, and by none today. Safe. -/
  | notModelled (mnemonic : String)
deriving DecidableEq, Repr

/-- The state after reset (10_state.md R34), with the default parameters (00_scope.md R6) and an environment that does
nothing (log entry 1). -/
def State.reset : State where
  ph := .idle
  en := 0x00#8
  q := Quanta.zero
  wp := 0#7
  acc := 0#32
  csum := 0x0000#16
  fb := []
  params := Config.Params.spec
  inputs := []
  lastRead := none
  draws := 0
  fbEpoch := 0

end Sys2Proof.Machine
end

