-- ==== Sys2Proof/Machine/Operands.lean ====
section
/-! DEFINITION. Byte orders, field assembly and the arithmetic of the data path (00_scope.md R8, 42_checksum.md R170), as
functions of values. -/

namespace Sys2Proof.Machine

/-- `be16(v) = v[15:8] ++ v[7:0]` (00_scope.md R8). -/
def be16 (v : Half) : List Byte := [v.extractLsb' 8 8, v.extractLsb' 0 8]

/-- `le16(v) = v[7:0] ++ v[15:8]` (00_scope.md R8). -/
def le16 (v : Half) : List Byte := [v.extractLsb' 0 8, v.extractLsb' 8 8]

/-- `zeros(n)` (00_scope.md R7). -/
def zeros (n : Nat) : List Byte := List.replicate n 0x00#8

/-- `b0 + (b1 << 8)` in 16 bits: the byte at the even offset is the low half (20_memory.md R52). -/
def wordOf (lo hi : Byte) : Half := lo.setWidth 16 + (hi.setWidth 16 <<< 8)

/-- `bswap16(v) = ((v & 0xFF) << 8) | (v >> 8)` (42_checksum.md R164). -/
def bswap16 (v : Half) : Half := ((v &&& 0xFF#16) <<< 8) ||| (v >>> 8)

/-- The source's loop for the class-enable byte, in a given order of the classes (41_builder.md R142): set bit `i` for
every enabled class `i`. -/
def classEnableByte (en : BitVec 8) : List (Fin 8) → Byte
  | [] => 0x00#8
  | i :: is => if en.getLsbD i.val then classEnableByte en is ||| (1#8 <<< i.val) else classEnableByte en is

/-- The class-enable vector, offsets 16..17: `0x00` and then `EN` (30_encoding.md R86). "The hardware needs no loop"
(41_builder.md R142). -/
def classEnableVector (en : BitVec 8) : List Byte := [0x00#8, en]

/-- The eight quantum fields in class order, big-endian (30_encoding.md R87, 41_builder.md R143). -/
def quantumFields (q : Quanta) : List Byte :=
  be16 q[0] ++ be16 q[1] ++ be16 q[2] ++ be16 q[3] ++ be16 q[4] ++ be16 q[5] ++ be16 q[6] ++ be16 q[7]

/-- `FrameFields(en, q)`, 34 bytes (41_builder.md R141). -/
def frameFields (en : BitVec 8) (q : Quanta) : List Byte :=
  Config.dstMac ++ Config.srcMac ++ be16 Config.ethertype ++ be16 Config.opcode ++ classEnableVector en ++ quantumFields q

/-- `Padded(f) = f ++ zeros(PAD_LEN)` (43_padder.md R181). -/
def padded (p : Config.Params) (f : List Byte) : List Byte := f ++ zeros p.padLen

/-- The two bytes of the trailer (20_memory.md R53): `le16(CSUM)`, or `be16(CSUM)` for `high_first`. -/
def trailer (order : Config.CsumOrder) (csum : Half) : List Byte :=
  match order with
  | .lowFirst => le16 csum
  | .highFirst => be16 csum

/-- The sum of the words `k = 0 .. n-1` of a byte sequence given by its bytes, in the accumulator's 32 bits
(42_checksum.md R161): `zext_32( f[2k] + (f[2k+1] << 8) )` each. -/
def sumWords32 (f : Nat → Byte) : Nat → BitVec 32
  | 0 => 0#32
  | n + 1 => sumWords32 f n + (wordOf (f (2 * n)) (f (2 * n + 1))).setWidth 32

/-- `(ACC >> 16) + (ACC & 0xFFFF)` (42_checksum.md R162). -/
def foldOnce (acc : BitVec 32) : BitVec 32 := (acc >>> 16) + (acc &&& 0xFFFF#32)

/-- `ACC > 0xFFFF`, "the same as `acc[31:16] != 0`" (42_checksum.md R170). -/
def mustFold (acc : BitVec 32) : Bool := decide (0xFFFF < acc.toNat)

/-- `(~ACC)[15:0]` (42_checksum.md R163). -/
def complement16 (acc : BitVec 32) : Half := (~~~acc).extractLsb' 0 16

end Sys2Proof.Machine
end

