-- ==== Sys2Proof/Machine/Ops.lean ====
section
/-! DEFINITION. The shared operations over the frame buffer and the registers (20_memory.md R64, 00_scope.md R8). There is
no exception to take and none to return from (60_exceptions.md R215, R216); the nearest thing, entering reset, is
`State.enterReset`. -/

namespace Sys2Proof.Machine

/-- What an address that is not listed reads as: no value ("a model gives those bytes no value", 10_state.md R27). -/
def Memory.unlisted : Option Byte := none

/-- The canonical form: addresses strictly rising. No entry can equal what an unlisted address reads as, because an
unlisted address has no value. -/
def Memory.wf : Memory → Bool
  | [] => true
  | c :: m => m.all (fun d => decide (c.1 < d.1)) && Memory.wf m

/-- `FB[a]`, if it has a value. -/
def Memory.load : Memory → Nat → Option Byte
  | [], _ => Memory.unlisted
  | c :: m, a => if c.1 = a then some c.2 else Memory.load m a

/-- `FB[a] <- b`. -/
def Memory.store : Memory → Nat → Byte → Memory
  | [], a, b => [(a, b)]
  | c :: m, a, b =>
    if a < c.1 then (a, b) :: c :: m
    else if a = c.1 then (a, b) :: m
    else c :: Memory.store m a b

/-- `FB[addr + j] <- v[j]` for every `j` (20_memory.md R64). -/
def Memory.storeBytes : Memory → Nat → List Byte → Memory
  | m, _, [] => m
  | m, a, b :: bs => Memory.storeBytes (Memory.store m a b) (a + 1) bs

/-- `FB[addr] ++ ... ++ FB[addr+n-1]` (20_memory.md R64), each byte that has one with its value. -/
def Memory.loadBytes : Memory → Nat → Nat → List (Option Byte)
  | _, _, 0 => []
  | m, a, n + 1 => Memory.load m a :: Memory.loadBytes m (a + 1) n

/-- The byte an operation sees at offset `k`: the one stored there, or a free value where nothing has been stored since
the last `RESET` or `START` (93_implementation_defined.md U5; log entry 3). -/
def State.frameByte (s : State) (k : Nat) : Byte :=
  (Memory.load s.fb k).getD (Config.freeFrameByte s.fbEpoch k)

/-- `MemWrite(addr, n, v)` with `n` the length of `v` (20_memory.md R64). -/
def State.memWrite (s : State) (addr : Nat) (v : List Byte) : State :=
  { s with fb := Memory.storeBytes s.fb addr v }

/-- `MemRead(addr, n)` (20_memory.md R64). -/
def State.memRead (s : State) : Nat → Nat → List Byte
  | _, 0 => []
  | addr, n + 1 => s.frameByte addr :: State.memRead s (addr + 1) n

/-- `PH <- p` (00_scope.md R8). -/
def State.setPh (s : State) (p : Phase) : State := { s with ph := p }

/-- `WP <- n`; `n` is at most `WIRE_LEN`, which fits in 7 bits (10_state.md R24). -/
def State.setWp (s : State) (n : Nat) : State := { s with wp := BitVec.ofNat 7 n }

/-- `ACC <- v`. -/
def State.setAcc (s : State) (v : BitVec 32) : State := { s with acc := v }

/-- `CSUM <- v`. -/
def State.setCsum (s : State) (v : BitVec 16) : State := { s with csum := v }

/-- `EN <- en; Q[i] <- q[i]` for all eight `i` together (70_reset_and_hazards.md R242). -/
def State.latch (s : State) (en : BitVec 8) (q : Quanta) : State := { s with en := en, q := q }

/-- `WP <- 0; ACC <- 0; CSUM <- 0x0000`, the part `RESET` and `START` share (40_sequencer_and_host.md R111, R112). -/
def State.clearWork (s : State) : State := { s with wp := 0#7, acc := 0#32, csum := 0x0000#16 }

/-- Every byte of `FB` becomes unspecified (10_state.md R27 with `WP` = 0; `FB[k] <- unspecified`, 40_sequencer_and_host.md
R111): no byte keeps a value and none is written, and the new unspecified contents are not the last ones. -/
def State.forgetFrame (s : State) : State := { s with fb := [], fbEpoch := s.fbEpoch + 1 }

/-- What `RESET` and `START` do to everything but `PH` (40_sequencer_and_host.md R111, R112): the configuration is replaced,
`WP`, `ACC` and `CSUM` are cleared, and with `WP` = 0 no byte of `FB` has a value (10_state.md R27). -/
def State.restart (s : State) (en : BitVec 8) (q : Quanta) : State := ((s.latch en q).clearWork).forgetFrame

/-- What the environment does from here on. -/
def State.setInputs (s : State) (l : List Stimulus) : State := { s with inputs := l }

/-- The Transmitter has seen `r` on the read port; a read without a value used up one free value. -/
def State.recordRead (s : State) (r : ReadSample) : State :=
  { s with lastRead := some r, draws := if r.valid then s.draws else s.draws + 1 }

/-- Entering reset (40_sequencer_and_host.md R111, 10_state.md R34). -/
def State.enterReset (s : State) : State :=
  (s.restart 0x00#8 Quanta.zero).setPh .idle

end Sys2Proof.Machine
end

