-- ==== Sys2Proof/Machine/Builder.lean ====
section
/-! DEFINITION. The Frame Field Builder: `BUILD` (41_builder.md). -/

namespace Sys2Proof.Machine

/-- `BUILD` (41_builder.md R140): `MemWrite(0, 34, FrameFields(EN, Q)); WP <- 34; PH <- PAD`. -/
def execBuild (s : State) : Host.Outcome State Fault Refusal :=
  .next (((s.memWrite 0 (frameFields s.en s.q)).setWp Config.fieldsLen).setPh .pad)

end Sys2Proof.Machine
end

