-- ==== Sys2Proof/Machine/Flags.lean ====
section
/-! DEFINITION. The two status flags (10_state.md R28) and the output ports (R30), functions of the state. There are no
arithmetic condition codes (R28). -/

namespace Sys2Proof.Machine

/-- `busy_o = (PH != IDLE) and (PH != DONE)` (10_state.md R28). -/
def State.busyO (s : State) : Bool :=
  match s.ph with
  | .idle => false
  | .build => true
  | .pad => true
  | .sum => true
  | .fold => true
  | .cpl => true
  | .append => true
  | .done => false

/-- `done_o = (PH == DONE)` (10_state.md R28). -/
def State.doneO (s : State) : Bool :=
  match s.ph with
  | .idle => false
  | .build => false
  | .pad => false
  | .sum => false
  | .fold => false
  | .cpl => false
  | .append => false
  | .done => true

/-- `rd_valid_o = (PH == DONE) and (rd_addr_i < WIRE_LEN)` (10_state.md R30, 40_sequencer_and_host.md R116). -/
def State.rdValidO (s : State) (a : BitVec 6) : Bool := s.doneO && decide (a.toNat < s.params.wireLen)

/-- `rd_data_o`: `FB[rd_addr_i]` when valid, otherwise a free value (40_sequencer_and_host.md R116). -/
def State.rdDataO (s : State) (a : BitVec 6) : Byte :=
  if s.rdValidO a then s.frameByte a.toNat else Config.freeReadData s.draws

/-- `csum_o = CSUM` (10_state.md R30). -/
def State.csumO (s : State) : BitVec 16 := s.csum

/-- `len_o = WP` (10_state.md R30). -/
def State.lenO (s : State) : BitVec 7 := s.wp

/-- A `START` request is accepted in `IDLE` and `DONE`, that is while not busy (40_sequencer_and_host.md R112). -/
def State.acceptsStart (s : State) : Bool := !s.busyO

end Sys2Proof.Machine
end

