-- ==== Sys2Proof/Machine/Padder.lean ====
section
/-! DEFINITION. The Frame Padder: `PAD` (43_padder.md). -/

namespace Sys2Proof.Machine

/-- `PAD` (43_padder.md R180): `MemWrite(34, PAD_LEN, zeros(PAD_LEN)); WP <- PAD_TARGET; PH <- SUM`. -/
def execPad (s : State) : Host.Outcome State Fault Refusal :=
  .next (((s.memWrite Config.fieldsLen (zeros s.params.padLen)).setWp s.params.padTarget).setPh .sum)

end Sys2Proof.Machine
end

