-- ==== Sys2Proof/Machine/Checksum.lean ====
section
/-! DEFINITION. The Checksum Calculator: `SUM`, `FOLD`, `CPL`, and the function they compute together (42_checksum.md). -/

namespace Sys2Proof.Machine

/-- `SUM` (42_checksum.md R161): `ACC <-` the sum of the words of `FB[0..PAD_TARGET-1]`; `PH <- FOLD`. -/
def execSum (s : State) : Host.Outcome State Fault Refusal :=
  .next ((s.setAcc (sumWords32 s.frameByte s.params.nWords)).setPh .fold)

/-- `FOLD` (42_checksum.md R162): fold once and stay while `ACC > 0xFFFF`, otherwise leave. -/
def execFold (s : State) : Host.Outcome State Fault Refusal :=
  if mustFold s.acc then .next ((s.setAcc (foldOnce s.acc)).setPh .fold) else .next (s.setPh .cpl)

/-- `CPL` (42_checksum.md R163): `CSUM <- (~ACC)[15:0]; PH <- APPEND`. -/
def execCpl (s : State) : Host.Outcome State Fault Refusal :=
  .next ((s.setCsum (complement16 s.acc)).setPh .append)

/-- Step 1 of `Checksum` (42_checksum.md R160): the exact integer sum of the words; an odd length is refused. -/
def wordSum : List Byte → Option Nat
  | [] => some 0
  | [_] => none
  | lo :: hi :: rest => (wordSum rest).map fun n => (wordOf lo hi).toNat + n

/-- Step 2 of `Checksum` (42_checksum.md R160), `while acc > 0xFFFF: acc = (acc >> 16) + (acc & 0xFFFF)`, for at most
`fuel` rounds. -/
def foldLoop : Nat → Nat → Nat
  | 0, acc => acc
  | fuel + 1, acc => if 0xFFFF < acc then foldLoop fuel (acc / 65536 + acc % 65536) else acc

/-- The whole loop: each round makes the value smaller, so `acc` rounds are enough. -/
def foldAll (acc : Nat) : Nat := foldLoop acc acc

/-- `Checksum(b)` (42_checksum.md R160): word sum, folded, complemented; no value for an odd length. -/
def checksumOf (b : List Byte) : Option Half := (wordSum b).map fun n => ~~~ (BitVec.ofNat 16 (foldAll n))

end Sys2Proof.Machine
end

