-- ==== Sys2Proof/Machine/WireFrame.lean ====
section
/-! DEFINITION. The trailer: `APPEND`, and the function a whole build computes (44_wireframe.md). -/

namespace Sys2Proof.Machine

/-- `APPEND` (44_wireframe.md R190): `MemWrite(PAD_TARGET, 2, le16(CSUM)); WP <- WIRE_LEN; PH <- DONE`, with `be16` for
`CSUM_ORDER = high_first`. -/
def execAppend (s : State) : Host.Outcome State Fault Refusal :=
  .next (((s.memWrite s.params.padTarget (trailer s.params.csumOrder s.csum)).setWp s.params.wireLen).setPh .done)

/-- The padded sequence `P = FrameFields(en, q) ++ zeros(PAD_LEN)` (44_wireframe.md R191). -/
def paddedFields (p : Config.Params) (en : BitVec 8) (q : Quanta) : List Byte := padded p (frameFields en q)

/-- `WireFrame(en, q) = P ++ le16(Checksum(P))` (44_wireframe.md R191), where the checksum has a value. -/
def wireFrame (p : Config.Params) (en : BitVec 8) (q : Quanta) : Option (List Byte) :=
  (checksumOf (paddedFields p en q)).map fun c => paddedFields p en q ++ trailer p.csumOrder c

end Sys2Proof.Machine
end

