-- ==== Sys2Proof/Machine/HostOps.lean ====
section
/-! DEFINITION. The host operations `RESET`, `START`, `READ` and the waiting phases `IDLE`, `DONE`
(40_sequencer_and_host.md). -/

namespace Sys2Proof.Machine

/-- `RESET` (40_sequencer_and_host.md R111), in every phase. -/
def execReset (s : State) : Host.Outcome State Fault Refusal := .next s.enterReset

/-- `IDLE` (40_sequencer_and_host.md R114): no state changes. -/
def execIdle (s : State) : Host.Outcome State Fault Refusal := .next s

/-- `DONE` (40_sequencer_and_host.md R115): no state changes. -/
def execDone (s : State) : Host.Outcome State Fault Refusal := .next s

/-- "The operation of the current phase" (40_sequencer_and_host.md R110). -/
def phaseOperation (s : State) : Host.Outcome State Fault Refusal :=
  match s.ph with
  | .idle => execIdle s
  | .build => execBuild s
  | .pad => execPad s
  | .sum => execSum s
  | .fold => execFold s
  | .cpl => execCpl s
  | .append => execAppend s
  | .done => execDone s

/-- `START` (40_sequencer_and_host.md R112): accepted in `IDLE` and `DONE`, it latches the whole configuration and begins a
build. It writes no byte of `FB`, and from it on `FB[WP..61]`, with `WP` = 0 the whole of `FB`, is unspecified and has no
value (10_state.md R27; log entry 5). In a busy phase it is not accepted, and "the step performs the operation of the current
phase exactly as if `start_i` were 0" (R113). -/
def execStart (en : BitVec 8) (q : Quanta) (s : State) : Host.Outcome State Fault Refusal :=
  if s.acceptsStart then .next ((s.restart en q).setPh .build) else phaseOperation s

/-- `READ` (40_sequencer_and_host.md R116): evaluated on the current state; no register and no byte of `FB` changes. What
the read port showed is recorded for the reader of the model. -/
def execRead (a : BitVec 6) (s : State) : Host.Outcome State Fault Refusal :=
  .next (s.recordRead { addr := a, valid := s.rdValidO a, data := s.rdDataO a })

end Sys2Proof.Machine
end

