-- ==== Sys2Proof/Machine/Dispatch.lean ====
section
/-! DEFINITION. One arm per operation of opcode_table.json. -/

namespace Sys2Proof.Machine

def exec (i : Instr) (s : State) : Host.Outcome State Fault Refusal :=
  match i with
  | .reset _ => Sys2Proof.Machine.execReset s
  | .start en q => Sys2Proof.Machine.execStart en q s
  | .read a => Sys2Proof.Machine.execRead a s
  | .idle => Sys2Proof.Machine.execIdle s
  | .build => Sys2Proof.Machine.execBuild s
  | .pad => Sys2Proof.Machine.execPad s
  | .sum => Sys2Proof.Machine.execSum s
  | .fold => Sys2Proof.Machine.execFold s
  | .cpl => Sys2Proof.Machine.execCpl s
  | .append => Sys2Proof.Machine.execAppend s
  | .done => Sys2Proof.Machine.execDone s

end Sys2Proof.Machine
end

