-- ==== Sys2Proof/WellFormed.lean ====
section
/-! DEFINITION. Which written-down requests name an operation. An `Instr` carries its widths in its types (10_state.md R37,
R29: a value out of range is "unrepresentable at the port"), so the checks stand where numbers are still plain: on the
lines of the spec's own program notation (30_encoding.md R96). -/

namespace Sys2Proof

/-- No check is left on an operation: every value of every operand is legal (40_sequencer_and_host.md R112, R116). -/
def Instr.wf : Instr → Bool
  | .reset _ => true
  | .start _ _ => true
  | .read _ => true
  | .idle => true
  | .build => true
  | .pad => true
  | .sum => true
  | .fold => true
  | .cpl => true
  | .append => true
  | .done => true

/-- One line of a program in the notation of 30_encoding.md R96, its numbers not yet checked. -/
inductive Line where
  /-- `RESET`: `rst_i` = 1 for one step. -/
  | reset
  /-- `START en= q=[]`: `start_i` = 1 with its operands. -/
  | start (en : Nat) (q : List Nat)
  /-- `STEP`: one step with `rst_i` = 0, `start_i` = 0. -/
  | step
  /-- `WAIT`: `STEP` repeated until `done_o` = 1. -/
  | wait
  /-- `READ a`: `rd_addr_i` = a. -/
  | read (a : Nat)
  /-- `READALL`: `READ 0` to `READ 61` in order. -/
  | readAll
  /-- `SEND n`: `READALL` repeated n times. -/
  | send (n : Nat)
deriving DecidableEq, Repr

/-- The line fits the ports it drives (10_state.md R29): an 8-bit `enable_i`; eight quanta, each in 0..65535 (the host's
duty of 70_reset_and_hazards.md R241); a 6-bit `rd_addr_i`. -/
def Line.wf : Line → Bool
  | .reset => true
  | .start en q => decide (en < 256) && (decide (q.length = 8) && q.all (fun v => decide (v < 65536)))
  | .step => true
  | .wait => true
  | .read a => decide (a < 64)
  | .readAll => true
  | .send _ => true

end Sys2Proof
end

