-- ==== Sys2Proof/Decode.lean ====
section
/-! DEFINITION. From codes to operations (30_encoding.md R91 to R94), the encoder beside it, and the rows of
opcode_table.json. The three formats have code spaces of their own: a number alone does not say which it belongs to. -/

namespace Sys2Proof

/-- The three formats of opcode_table.json. -/
inductive Format where
  | host | rdPort | phase
deriving DecidableEq, Repr

/-- A code of one format: the host vector `hv = {rst_i, start_i}` with the 136-bit operand (30_encoding.md R92), the read
address (R93), or a phase code (R91). -/
inductive Code where
  | host (hv : BitVec 2) (operand : BitVec 136)
  | rdPort (a : BitVec 6)
  | phase (ph : BitVec 3)
deriving DecidableEq, Repr

/-- Why a code or a number selects no operation. -/
inductive DecodeError where
  /-- `hv` = 00 "requests nothing" (30_encoding.md R92): the phase selects the operation instead. -/
  | noRequest
  /-- The number has more bits than the format. -/
  | tooWide
deriving DecidableEq, Repr

/-- The operand of `START` as one 136-bit value, `enable_i` in bits 135..128 and `quantum_i[i]` in bits
`127-16i .. 112-16i` (30_encoding.md R92). -/
def packOperand (en : BitVec 8) (q : Quanta) : BitVec 136 :=
  en.setWidth 136 <<< 128 ||| q[0].setWidth 136 <<< 112 ||| q[1].setWidth 136 <<< 96 ||| q[2].setWidth 136 <<< 80
    ||| q[3].setWidth 136 <<< 64 ||| q[4].setWidth 136 <<< 48 ||| q[5].setWidth 136 <<< 32
    ||| q[6].setWidth 136 <<< 16 ||| q[7].setWidth 136

/-- `enable_i` of a packed operand: bits 135..128 (30_encoding.md R92). -/
def unpackEnable (operand : BitVec 136) : BitVec 8 := operand.extractLsb' 128 8

/-- `quantum_i[0..7]` of a packed operand: bits `127-16i .. 112-16i` (30_encoding.md R92). -/
def unpackQuanta (operand : BitVec 136) : Quanta :=
  #v[operand.extractLsb' 112 16, operand.extractLsb' 96 16, operand.extractLsb' 80 16, operand.extractLsb' 64 16,
     operand.extractLsb' 48 16, operand.extractLsb' 32 16, operand.extractLsb' 16 16, operand.extractLsb' 0 16]

/-- What the host vector requests (30_encoding.md R92): bit 1 selects `RESET` whatever bit 0 is, `01` requests `START`,
`00` requests nothing. -/
def decodeRequest (hv : BitVec 2) (en : BitVec 8) (q : Quanta) : Option Instr :=
  if hv.getLsbD 1 then some (.reset (hv.getLsbD 0))
  else if hv.getLsbD 0 then some (.start en q)
  else none

/-- The operation a phase code selects (30_encoding.md R91). All eight codes are assigned (R94 (d)). -/
def decodePhase (ph : BitVec 3) : Instr :=
  match ph.toNat with
  | 0 => .idle
  | 1 => .build
  | 2 => .pad
  | 3 => .sum
  | 4 => .fold
  | 5 => .cpl
  | 6 => .append
  | _ => .done

/-- The decoder, total on the codes of the three formats. -/
def decode : Code → Except DecodeError Instr
  | .host hv operand =>
    match decodeRequest hv (unpackEnable operand) (unpackQuanta operand) with
    | some i => .ok i
    | none => .error .noRequest
  | .rdPort a => .ok (.read a)
  | .phase ph => .ok (decodePhase ph)

/-- A number read as a code of one format: the host vector in the two lowest bits and the operand in the 136 above them. -/
def codeOfNat (f : Format) (w : Nat) : Except DecodeError Code :=
  match f with
  | .host => if w < 2 ^ 138 then .ok (.host (BitVec.ofNat 2 w) (BitVec.ofNat 136 (w / 4))) else .error .tooWide
  | .rdPort => if w < 64 then .ok (.rdPort (BitVec.ofNat 6 w)) else .error .tooWide
  | .phase => if w < 8 then .ok (.phase (BitVec.ofNat 3 w)) else .error .tooWide

/-- Decoding a number of one format, total on all numbers. -/
def decodeNat (f : Format) (w : Nat) : Except DecodeError Instr :=
  match codeOfNat f w with
  | .ok c => decode c
  | .error e => .error e

/-- The encoder: the code of each operation (30_encoding.md R91 to R93). The operand bits `RESET` ignores are zero. -/
def encode : Instr → Code
  | .reset s => .host (if s then 3#2 else 2#2) 0#136
  | .start en q => .host 1#2 (packOperand en q)
  | .read a => .rdPort a
  | .idle => .phase 0#3
  | .build => .phase 1#3
  | .pad => .phase 2#3
  | .sum => .phase 3#3
  | .fold => .phase 4#3
  | .cpl => .phase 5#3
  | .append => .phase 6#3
  | .done => .phase 7#3

/-- A code the encoder gives: not the empty request, and no bits in the operand that `RESET` ignores. -/
def Code.canonical : Code → Bool
  | .host hv operand =>
    if hv.getLsbD 1 then decide (operand = 0#136) else hv.getLsbD 0
  | .rdPort _ => true
  | .phase _ => true

/-- One row of opcode_table.json: a code `c` is the row's when its format is the row's and `c & mask = match`. -/
structure Row where
  mnemonic : String
  format   : Format
  width    : Nat
  mask     : Nat
  value    : Nat
deriving DecidableEq, Repr

/-- The rows of opcode_table.json. -/
def Instr.row : Instr → Row
  | .reset _ => ⟨"RESET", .host, 2, 0x2, 0x2⟩
  | .start _ _ => ⟨"START", .host, 2, 0x3, 0x1⟩
  | .read _ => ⟨"READ", .rdPort, 6, 0x00, 0x00⟩
  | .idle => ⟨"IDLE", .phase, 3, 0x7, 0x0⟩
  | .build => ⟨"BUILD", .phase, 3, 0x7, 0x1⟩
  | .pad => ⟨"PAD", .phase, 3, 0x7, 0x2⟩
  | .sum => ⟨"SUM", .phase, 3, 0x7, 0x3⟩
  | .fold => ⟨"FOLD", .phase, 3, 0x7, 0x4⟩
  | .cpl => ⟨"CPL", .phase, 3, 0x7, 0x5⟩
  | .append => ⟨"APPEND", .phase, 3, 0x7, 0x6⟩
  | .done => ⟨"DONE", .phase, 3, 0x7, 0x7⟩

/-- The format and the table's word of a code (the operand of `START` is no part of the table's word). -/
def Code.word : Code → Format × Nat
  | .host hv _ => (.host, hv.toNat)
  | .rdPort a => (.rdPort, a.toNat)
  | .phase ph => (.phase, ph.toNat)

/-- The code falls under the row: same format, and the row's fixed bits. -/
def Row.matches (r : Row) (c : Code) : Bool :=
  decide (c.word.1 = r.format) && decide (c.word.2 &&& r.mask = r.value)

/-- The formats a number of `nbits` bits can be a code of, in the order they are tried. The table's own widths say which:
2 bits (or 138, with the operand) are a host vector, 6 a read address, 3 a phase code. A width rounded up to one byte does
not say which, and the codes of the formats overlap there: a phase code is tried first (log entry 11). -/
def formatsOfWidth (nbits : Nat) : List Format :=
  if nbits = 2 ∨ nbits = 138 ∨ nbits = 144 then [.host]
  else if nbits = 6 then [.rdPort]
  else if nbits = 3 then [.phase]
  else if nbits = 8 then [.phase, .rdPort]
  else []

/-- The first of the formats under which the number selects an operation. -/
def firstDecoded : List Format → Nat → Option Instr
  | [], _ => none
  | f :: fs, w =>
    match decodeNat f w with
    | .ok i => some i
    | .error _ => firstDecoded fs w

/-- The operation the decoder reads from a word numbered as opcode_table.json numbers it. -/
def decodeTableWord (nbits w : Nat) : Option Instr := firstDecoded (formatsOfWidth nbits) w

end Sys2Proof
end

