-- ==== Sys2Proof/Machine/Fetch.lean ====
section
/-! DEFINITION. Which operation the next step performs (40_sequencer_and_host.md R110): the sampled ports, then the phase.
There is no program and no fetch (10_state.md R31, 20_memory.md R63). -/

namespace Sys2Proof.Machine

/-- The 3-bit code of each phase (10_state.md R21). -/
def phaseCode : Phase → BitVec 3
  | .idle => 0b000#3
  | .build => 0b001#3
  | .pad => 0b010#3
  | .sum => 0b011#3
  | .fold => 0b100#3
  | .cpl => 0b101#3
  | .append => 0b110#3
  | .done => 0b111#3

/-- The operation the sequencer performs in a phase (30_encoding.md R91). -/
def phaseInstr (ph : Phase) : Instr := decodePhase (phaseCode ph)

/-- `hv = {rst_i, start_i}`, `rst_i` in bit 1 (30_encoding.md R92). -/
def StepInput.hv (p : StepInput) : BitVec 2 := BitVec.ofBool p.rst ++ BitVec.ofBool p.start

/-- The operation of a step (40_sequencer_and_host.md R110): `RESET`, then a requested `START`, then the operation of the
phase. Whether a requested `START` is accepted is the operation's own question (R112, R113). -/
def select (p : StepInput) (ph : Phase) : Instr :=
  match decodeRequest p.hv p.enable p.quantum with
  | some i => i
  | none => phaseInstr ph

/-- The code that selects the operation of a step, as the decoder reads it. -/
def selectCode (p : StepInput) (ph : Phase) : Code :=
  if p.hv = 0#2 then .phase (phaseCode ph) else .host p.hv (packOperand p.enable p.quantum)

/-- The implementation waits inside a busy phase: nothing happens, "except that `rst_i` is still obeyed and `start_i` is
still ignored" (40_sequencer_and_host.md R120). -/
def State.stallsOn (s : State) (p : StepInput) : Bool := p.stall && s.busyO && !p.rst

/-- Ports on which nothing is requested. -/
def StepInput.quiet : StepInput :=
  { rst := false, start := false, enable := 0x00#8, quantum := Quanta.zero, stall := false }

/-- Ports that request `START` with these operands. -/
def StepInput.starting (en : BitVec 8) (q : Quanta) : StepInput :=
  { rst := false, start := true, enable := en, quantum := q, stall := false }

/-- Ports that request `RESET`, with any `start_i`. -/
def StepInput.resetting (start : Bool) : StepInput :=
  { rst := true, start := start, enable := 0x00#8, quantum := Quanta.zero, stall := false }

/-- The operation the next step performs (none: a stall), and the state it is performed in, whose coming stimuli are the
later ones. After the last stimulus the ports are quiet (log entry 1). -/
def fetch (s : State) : Option Instr × State :=
  match s.inputs with
  | [] => (some (phaseInstr s.ph), s)
  | .sample a :: rest => (some (.read a), s.setInputs rest)
  | .step p :: rest => (if s.stallsOn p then none else some (select p s.ph), s.setInputs rest)

/-- Present one operation to the next step, and only that: its request on the ports in place of the next stimulus, or its
phase with quiet ports. A `START` is presented in a phase that accepts it (log entry 10). -/
def State.present (s : State) (i : Instr) : State :=
  match i with
  | .reset b => s.setInputs (.step (StepInput.resetting b) :: s.inputs.tail)
  | .start en q =>
    (if s.acceptsStart then s else s.setPh .idle).setInputs (.step (StepInput.starting en q) :: s.inputs.tail)
  | .read a => s.setInputs (.sample a :: s.inputs.tail)
  | .idle => (s.setPh .idle).setInputs (.step StepInput.quiet :: s.inputs.tail)
  | .build => (s.setPh .build).setInputs (.step StepInput.quiet :: s.inputs.tail)
  | .pad => (s.setPh .pad).setInputs (.step StepInput.quiet :: s.inputs.tail)
  | .sum => (s.setPh .sum).setInputs (.step StepInput.quiet :: s.inputs.tail)
  | .fold => (s.setPh .fold).setInputs (.step StepInput.quiet :: s.inputs.tail)
  | .cpl => (s.setPh .cpl).setInputs (.step StepInput.quiet :: s.inputs.tail)
  | .append => (s.setPh .append).setInputs (.step StepInput.quiet :: s.inputs.tail)
  | .done => (s.setPh .done).setInputs (.step StepInput.quiet :: s.inputs.tail)

/-- The stimuli one program line stands for (30_encoding.md R96). `READALL` reads `WIRE_LEN` = 62 bytes; `WAIT` is written
as 8 `STEP`s, the longest wait (40_sequencer_and_host.md R119), because a `STEP` in `DONE` changes nothing (R115; log
entry 12). -/
def lineStimuli : Line → List Stimulus
  | .reset => [.step (StepInput.resetting false)]
  | .start en q =>
    [.step (StepInput.starting (BitVec.ofNat 8 en) (Vector.ofFn fun i => BitVec.ofNat 16 (q.getD i.val 0)))]
  | .step => [.step StepInput.quiet]
  | .wait => List.replicate 8 (.step StepInput.quiet)
  | .read a => [.sample (BitVec.ofNat 6 a)]
  | .readAll => (List.range 62).map fun a => .sample (BitVec.ofNat 6 a)
  | .send n => (List.replicate n ((List.range 62).map fun a => Stimulus.sample (BitVec.ofNat 6 a))).flatten

end Sys2Proof.Machine
end

