-- ==== Sys2Proof/Machine/Step.lean ====
section
/-! DEFINITION. The step function (40_sequencer_and_host.md R110). -/

namespace Sys2Proof.Machine

/-- One step: the selected operation, or nothing during a stall (40_sequencer_and_host.md R110, R120). -/
def step (s : State) : Host.Outcome State Fault Refusal :=
  match fetch s with
  | (some i, s') => exec i s'
  | (none, s') => .next s'

/-- The state in which the next step performs exactly the operation the decoder reads from the table's word; the state as
it was where the decoder reads none. -/
def State.withFetchWord (s : State) (nbits w : Nat) : State :=
  match decodeTableWord nbits w with
  | some i => s.present i
  | none => s

end Sys2Proof.Machine
end

