-- ==== Sys2Proof/Safety.lean ====
section
/-! DEFINITION. The terms claims are stated in: the invariant of every state a run reaches, the words for what the
environment does, and the closed forms of the spec that a build is compared with. -/

namespace Sys2Proof.Machine

/-- What the write pointer holds in each phase (10_state.md R24). -/
def wpOf (p : Config.Params) : Phase → Nat
  | .idle => 0
  | .build => 0
  | .pad => Config.fieldsLen
  | .sum => p.padTarget
  | .fold => p.padTarget
  | .cpl => p.padTarget
  | .append => p.padTarget
  | .done => p.wireLen

/-- What the accumulator holds in each phase, where the word sum of the padded sequence is `n` (10_state.md R25,
42_checksum.md R161, R162). -/
def accAt (n : Nat) (acc : BitVec 32) : Phase → Prop
  | .idle => acc = 0#32
  | .build => acc = 0#32
  | .pad => acc = 0#32
  | .sum => acc = 0#32
  | .fold => foldAll acc.toNat = foldAll n
  | .cpl => acc.toNat = foldAll n
  | .append => acc.toNat = foldAll n
  | .done => acc.toNat = foldAll n

/-- What the checksum register holds in each phase (10_state.md R26, 40_sequencer_and_host.md R121), where the checksum of
the padded sequence is `c`. -/
def csumAt (c : Option Half) (csum : Half) : Phase → Prop
  | .idle => csum = 0x0000#16
  | .build => csum = 0x0000#16
  | .pad => csum = 0x0000#16
  | .sum => csum = 0x0000#16
  | .fold => csum = 0x0000#16
  | .cpl => csum = 0x0000#16
  | .append => c = some csum
  | .done => c = some csum

/-- What holds of every state a run from reset reaches. -/
structure Inv (s : State) : Prop where
  /-- The frame buffer keeps its canonical form. -/
  memoryCanonical : Memory.wf s.fb = true
  /-- No byte from `WP` on has a value (10_state.md R27); so only the addresses 0..WIRE_LEN-1 do (20_memory.md R50). -/
  memoryBelowWp : ∀ c ∈ s.fb, c.1 < s.wp.toNat
  /-- The write pointer's table (10_state.md R24). -/
  writePointer : s.wp.toNat = wpOf s.params s.ph
  /-- "`FB[0..WP-1]` is the frame so far" (10_state.md R24, R36). -/
  frameSoFar : ∀ k, k < s.wp.toNat →
    Memory.load s.fb k = (paddedFields s.params s.en s.q ++ trailer s.params.csumOrder s.csum)[k]?
  /-- The accumulator's contents (10_state.md R25). -/
  accumulator : ∀ n, wordSum (paddedFields s.params s.en s.q) = some n → accAt n s.acc s.ph
  /-- The checksum's contents (10_state.md R26). -/
  checksum : csumAt (checksumOf (paddedFields s.params s.en s.q)) s.csum s.ph
  /-- `IDLE` is reached by `RESET` only, so no configuration is latched there (40_sequencer_and_host.md R114, R117). -/
  idleConfig : s.ph = .idle → s.en = 0x00#8 ∧ s.q = Quanta.zero

/-- `k` steps, as the host runs them. -/
def runSteps (k : Nat) (s : State) : Host.Outcome State Fault Refusal := Host.Core.run Sys2Proof.core k s

/-- The seven items of 10_state.md R20 agree. -/
def State.sameRegisters (s t : State) : Prop := s.toBlock = t.toBlock

/-- The successor of each phase with no `RESET` and no accepted `START` (40_sequencer_and_host.md R117, R118). -/
def nextPhase (s : State) : Phase :=
  match s.ph with
  | .idle => .idle
  | .build => .pad
  | .pad => .sum
  | .sum => .fold
  | .fold => if 0xFFFF < s.acc.toNat then .fold else .cpl
  | .cpl => .append
  | .append => .done
  | .done => .done

/-- The model's own five fields agree. -/
def State.sameModelFields (s t : State) : Prop :=
  s.params = t.params ∧ s.inputs = t.inputs ∧ s.lastRead = t.lastRead ∧ s.draws = t.draws ∧ s.fbEpoch = t.fbEpoch

/-- Neither `RESET` nor `START` is requested. -/
def Stimulus.noRequest : Stimulus → Bool
  | .step p => !p.rst && !p.start
  | .sample _ => true

/-- `RESET` is not requested; `START` may be. -/
def Stimulus.noReset : Stimulus → Bool
  | .step p => !p.rst
  | .sample _ => true

/-- A step in which the implementation does not wait. -/
def Stimulus.proceeds : Stimulus → Bool
  | .step p => !p.stall
  | .sample _ => false

/-- The number of folds from an accumulator value: 0, 1 or 2 (40_sequencer_and_host.md R119, 42_checksum.md R165). -/
def foldsFrom (acc : Nat) : Nat :=
  if acc ≤ 0xFFFF then 0
  else if acc / 65536 + acc % 65536 ≤ 0xFFFF then 1
  else 2

/-- `S(en, q)` (42_checksum.md R164). -/
def closedSum (en : BitVec 8) (q : Quanta) : Nat :=
  0x9755 + en.toNat * 256
    + ((bswap16 q[0]).toNat + (bswap16 q[1]).toNat + (bswap16 q[2]).toNat + (bswap16 q[3]).toNat
      + (bswap16 q[4]).toNat + (bswap16 q[5]).toNat + (bswap16 q[6]).toNat + (bswap16 q[7]).toNat)

/-- Procedure (b) of 42_checksum.md R166, "one fold plus one additional add", before the complement. -/
def oneFoldOneAdd (acc : Nat) : Nat :=
  ((acc / 65536 + acc % 65536) + (acc / 65536 + acc % 65536) / 65536) % 65536

/-- One 16-bit add with end-around carry (42_checksum.md R166 (c)). -/
def endAroundAdd (acc w : Nat) : Nat :=
  if 65536 ≤ acc + w then acc + w - 65536 + 1 else acc + w

/-- Procedure (c) of 42_checksum.md R166: a 16-bit accumulator with end-around carry, one word at a time. -/
def endAroundSum : List Byte → Nat → Nat
  | lo :: hi :: rest, acc => endAroundSum rest (endAroundAdd acc (wordOf lo hi).toNat)
  | [_], acc => acc
  | [], acc => acc

end Sys2Proof.Machine
end

