-- ==== Sys2Proof/Certificates/Slice0/Obligations.lean ====
section
/-! DEFINITION. The statements for the provers. Each docstring names the rule of spec/ it formalises; a clause about the
model's own fields (log entries 1 to 4, 8) is the model's, not the spec's. -/

open Sys2Proof Sys2Proof.Machine

/-! ## Reset, parameters, and what runs -/

/-- 10_state.md R34: every register after reset, no byte of `FB` with a value, and the output ports. `rd_data_o` is
unspecified there, so nothing is said of it. -/
def Obligations.ResetStateHasTheSpecsValues : Prop :=
  State.reset.ph = .idle ∧ State.reset.en = 0x00#8 ∧ (∀ i : Fin 8, State.reset.q[i] = 0x0000#16) ∧
  State.reset.wp = 0#7 ∧ State.reset.acc = 0#32 ∧ State.reset.csum = 0x0000#16 ∧
  (∀ k, Memory.load State.reset.fb k = none) ∧
  State.reset.busyO = false ∧ State.reset.doneO = false ∧ State.reset.csumO = 0x0000#16 ∧ State.reset.lenO = 0#7 ∧
  (∀ a, State.reset.rdValidO a = false)

/-- 00_scope.md R6 and 43_padder.md R183: the derived lengths at the spec's parameters, and what every legal parameter
value meets. -/
def Obligations.ParametersAreTheSpecs : Prop :=
  State.reset.params = Config.Params.spec ∧
  Config.Params.spec.padLen = 26 ∧ Config.Params.spec.padTarget = 60 ∧ Config.Params.spec.wireLen = 62 ∧
  Config.Params.spec.nWords = 30 ∧ Config.Params.spec.csumOrder = .lowFirst ∧
  (∀ n : Nat, n % 2 = 0 ∧ 34 + n + 2 ≤ 2 ^ 7 - 1 ↔ ∃ p : Config.Params, p.padLen = n) ∧
  (∀ p : Config.Params, p.padTarget = 34 + p.padLen ∧ p.wireLen = p.padTarget + 2 ∧ p.padTarget = 2 * p.nWords)

/-- 60_exceptions.md R210: no operation faults, in any state and for any operands; the step always goes on. -/
def Obligations.EveryOperationAndStepGoesOn : Prop :=
  (∀ (i : Instr) (s : State), ∃ t, exec i s = .next t) ∧ (∀ s : State, ∃ t, step s = .next t)

/-- 30_encoding.md R92, R93, 40_sequencer_and_host.md R110: a step is `exec` of the operation that the decoder reads from
the code on the ports or, with no request, from the code of the phase, in the state that is left with the later stimuli;
and there always is one. Log entries 1, 2 and 6 (the stimuli, `READ` between steps, stalls) are the model's. -/
def Obligations.StepRunsTheDecodedOperation : Prop :=
  (∀ (s : State) (p : StepInput) (rest : List Stimulus) (i : Instr), s.inputs = .step p :: rest →
    s.stallsOn p = false → decode (selectCode p s.ph) = .ok i → step s = exec i (s.setInputs rest)) ∧
  (∀ (s : State) (a : BitVec 6) (rest : List Stimulus) (i : Instr), s.inputs = .sample a :: rest →
    decode (.rdPort a) = .ok i → step s = exec i (s.setInputs rest)) ∧
  (∀ (s : State) (i : Instr), s.inputs = [] → decode (.phase (phaseCode s.ph)) = .ok i → step s = exec i s) ∧
  (∀ (p : StepInput) (ph : Phase), ∃ i, decode (selectCode p ph) = .ok i)

/-- Model's choice (log entries 10, 11): after `withFetchWord` the next step runs exactly the operation the decoder reads
from the table's word, in a state that differs from the given one at most in the phase and the stimuli. -/
def Obligations.FetchWordRunsTheDecodedOperation : Prop :=
  ∀ (s : State) (nbits w : Nat) (i : Instr), decodeTableWord nbits w = some i →
    ∃ s' : State, step (s.withFetchWord nbits w) = exec i s' ∧ s'.inputs = s.inputs.tail ∧
      s'.en = s.en ∧ s'.q = s.q ∧ s'.wp = s.wp ∧ s'.acc = s.acc ∧ s'.csum = s.csum ∧ s'.fb = s.fb ∧
      s'.params = s.params ∧ s'.lastRead = s.lastRead ∧ s'.draws = s.draws ∧ s'.fbEpoch = s.fbEpoch

/-! ## Encoding -/

/-- Decode and encode agree, for every operation with every operand (30_encoding.md R91 to R93). -/
def Obligations.DecodeOfEncodeIsTheOperation : Prop :=
  ∀ i : Instr, i.wf = true → decode (encode i) = .ok i

/-- The other direction: a canonical code (no bits in the operand that `RESET` ignores) is the code of what it decodes
to. -/
def Obligations.EncodeOfDecodeIsTheCanonicalCode : Prop :=
  ∀ (c : Code) (i : Instr), c.canonical = true → decode c = .ok i → encode i = c

/-- 30_encoding.md R92: `hv[1] = 1` is `RESET` whatever `hv[0]` is, `01` is `START` with its operands at the stated bits,
`00` requests nothing; R93, R94 (d): every read address and every phase code selects an operation. -/
def Obligations.HostVectorDecodesAsStated : Prop :=
  (∀ (hv : BitVec 2) (o : BitVec 136), hv.getLsbD 1 = true → decode (.host hv o) = .ok (.reset (hv.getLsbD 0))) ∧
  (∀ o : BitVec 136, ∃ q : Quanta, decode (.host 0b01#2 o) = .ok (.start (o.extractLsb' 128 8) q) ∧
    ∀ i : Fin 8, q[i] = o.extractLsb' (112 - 16 * i.val) 16) ∧
  (∀ (c : Code) (e : DecodeError), decode c = .error e ↔ e = .noRequest ∧ ∃ o, c = .host 0b00#2 o)

/-- opcode_table.json: the decoder's operation is that of the one row whose format, mask and match fit the code. -/
def Obligations.DecodedOperationIsTheOnlyMatchingRow : Prop :=
  ∀ (c : Code) (i : Instr), decode c = .ok i →
    i.row.matches c = true ∧ ∀ j : Instr, j.row.matches c = true → j.row = i.row

/-- Words written out from 30_encoding.md R91 to R93, one or more of each format. -/
def Obligations.WrittenOutWordsDecode : Prop :=
  decodeNat .host 0b10 = .ok (.reset false) ∧ decodeNat .host 0b11 = .ok (.reset true) ∧
  decodeNat .host (0x890064000000000000000000000000FFFF * 4 + 0b01)
    = .ok (.start 0x89#8 #v[100#16, 0#16, 0#16, 0#16, 0#16, 0#16, 0#16, 65535#16]) ∧
  decodeNat .rdPort 0b010001 = .ok (.read 17#6) ∧
  decodeNat .phase 0b001 = .ok .build ∧ decodeNat .phase 0b010 = .ok .pad ∧ decodeNat .phase 0b011 = .ok .sum ∧
  decodeNat .phase 0b100 = .ok .fold ∧ decodeNat .phase 0b101 = .ok .cpl ∧ decodeNat .phase 0b110 = .ok .append ∧
  decodeNat .phase 0b111 = .ok .done ∧ decodeNat .phase 0b000 = .ok .idle

/-! ## The host operations -/

/-- 40_sequencer_and_host.md R111: `RESET` in every state, its registers, its flags, its priority, and that repeating it
changes no register. -/
def Obligations.ResetPutsEveryRegisterAtItsResetValue : Prop :=
  ∀ (s : State) (b : Bool),
    (∃ t, exec (.reset b) s = .next t ∧
      t.ph = .idle ∧ t.en = 0x00#8 ∧ (∀ i : Fin 8, t.q[i] = 0x0000#16) ∧ t.wp = 0#7 ∧ t.acc = 0#32 ∧
      t.csum = 0x0000#16 ∧ (∀ k, Memory.load t.fb k = none) ∧
      t.busyO = false ∧ t.doneO = false ∧ (∀ a, t.rdValidO a = false) ∧
      t.params = s.params ∧ t.inputs = s.inputs ∧ t.lastRead = s.lastRead ∧ t.draws = s.draws ∧
      (∀ b' : Bool, ∃ u, exec (.reset b') t = .next u ∧ t.sameRegisters u)) ∧
    (∀ (p : StepInput) (rest : List Stimulus), s.inputs = .step p :: rest → p.rst = true →
      step s = exec (.reset p.start) (s.setInputs rest))

/-- 40_sequencer_and_host.md R112: an accepted `START` latches the whole configuration, clears the working registers, goes
to `BUILD`, and puts no value into any byte of `FB`; a second `START` right after it is ignored. That no byte has a value
from then on is 10_state.md R27 with `WP` = 0, as log entry 5 reads it. -/
def Obligations.StartLatchesTheConfiguration : Prop :=
  (∀ (s : State) (en : BitVec 8) (q : Quanta), s.ph = .idle ∨ s.ph = .done →
    ∃ t, exec (.start en q) s = .next t ∧
      t.en = en ∧ (∀ i : Fin 8, t.q[i] = q[i]) ∧ t.wp = 0#7 ∧ t.acc = 0#32 ∧ t.csum = 0x0000#16 ∧ t.ph = .build ∧
      (∀ k, Memory.load t.fb k = none) ∧
      t.busyO = true ∧ t.doneO = false ∧ (∀ a, t.rdValidO a = false) ∧
      t.params = s.params ∧ t.inputs = s.inputs ∧ t.lastRead = s.lastRead ∧ t.draws = s.draws ∧
      (∀ (en' : BitVec 8) (q' : Quanta), exec (.start en' q') t = exec .build t)) ∧
  (∀ (s : State) (p : StepInput) (rest : List Stimulus), s.inputs = .step p :: rest → p.rst = false →
    p.start = true → s.ph = .idle ∨ s.ph = .done →
    step s = exec (.start p.enable p.quantum) (s.setInputs rest))

/-- 40_sequencer_and_host.md R113: a `START` request in a busy phase is dropped. The step is the step of any other ports
without `RESET`, `start_i` = 0 among them, so the operands are not sampled and nothing is remembered; and there is no
error. -/
def Obligations.StartWhileBusyIsDropped : Prop :=
  (∀ (s : State) (p p' : StepInput) (rest : List Stimulus), s.busyO = true → s.inputs = .step p :: rest →
    p.rst = false → p'.rst = false → p'.stall = p.stall →
    step s = step (s.setInputs (.step p' :: rest)) ∧ ∃ t, step s = .next t ∧ t.inputs = rest) ∧
  (∀ (s : State) (en : BitVec 8) (q : Quanta), s.busyO = true → exec (.start en q) s = exec (phaseInstr s.ph) s)

/-- 40_sequencer_and_host.md R116: the read port's two values, and that a `READ` changes no register and no byte. The
record of what was seen (log entry 2) and the counter of free values (log entry 4) are the model's. -/
def Obligations.ReadShowsTheByteAndChangesNothing : Prop :=
  ∀ (s : State) (a : BitVec 6), ∃ t, exec (.read a) s = .next t ∧ s.sameRegisters t ∧
    t.params = s.params ∧ t.inputs = s.inputs ∧ t.fbEpoch = s.fbEpoch ∧
    ∃ r : ReadSample, t.lastRead = some r ∧ r.addr = a ∧
      (r.valid = true ↔ s.ph = .done ∧ a.toNat < s.params.wireLen) ∧
      (r.valid = true → t.draws = s.draws ∧ ∀ b, Memory.load s.fb a.toNat = some b → r.data = b) ∧
      (r.valid = false → r.data = Config.freeReadData s.draws ∧ t.draws = s.draws + 1) ∧
      (Inv s → r.valid = true → ∃ w, wireFrame s.params s.en s.q = some w ∧ w[a.toNat]? = some r.data)

/-- 40_sequencer_and_host.md R114, R115: `IDLE` and `DONE` change nothing, for any number of steps and reads without a
request. -/
def Obligations.WaitingPhasesHold : Prop :=
  (∀ s : State, exec .idle s = .next s ∧ exec .done s = .next s) ∧
  (∀ (s : State) (k : Nat), s.ph = .idle ∨ s.ph = .done → (∀ x ∈ s.inputs, x.noRequest = true) →
    ∃ t, runSteps k s = .next t ∧ s.sameRegisters t ∧ t.busyO = false ∧ (t.doneO = true ↔ s.ph = .done) ∧
      (s.ph = .idle → ∀ a, t.rdValidO a = false))

/-! ## The phase operations -/

/-- 41_builder.md R140, with the bytes of R141 to R145 and 30_encoding.md R82 to R87 written out: `BUILD` writes the 34
bytes, `WP` and `PH`, and nothing else. -/
def Obligations.BuildWritesTheFrameFields : Prop :=
  ∀ s : State, ∃ t, exec .build s = .next t ∧
    (∀ k, k < 16 → Memory.load t.fb k =
      [0x01#8, 0x80#8, 0xC2#8, 0x00#8, 0x00#8, 0x01#8, 0x01#8, 0x02#8, 0x03#8, 0x04#8, 0x05#8, 0x06#8,
       0x88#8, 0x08#8, 0x01#8, 0x01#8][k]?) ∧
    Memory.load t.fb 16 = some 0x00#8 ∧ Memory.load t.fb 17 = some s.en ∧
    (∀ i : Fin 8, Memory.load t.fb (18 + 2 * i.val) = some (s.q[i].extractLsb' 8 8) ∧
      Memory.load t.fb (19 + 2 * i.val) = some (s.q[i].extractLsb' 0 8)) ∧
    (∀ k, 34 ≤ k → Memory.load t.fb k = Memory.load s.fb k) ∧
    t.wp.toNat = 34 ∧ t.ph = .pad ∧ t.busyO = true ∧
    t.en = s.en ∧ t.q = s.q ∧ t.acc = s.acc ∧ t.csum = s.csum ∧ s.sameModelFields t

/-- 43_padder.md R180: `PAD` writes `PAD_LEN` zero bytes at 34, `WP` and `PH`, and nothing else. -/
def Obligations.PadWritesZeros : Prop :=
  ∀ s : State, ∃ t, exec .pad s = .next t ∧
    (∀ k, 34 ≤ k → k < 34 + s.params.padLen → Memory.load t.fb k = some 0x00#8) ∧
    (∀ k, k < 34 ∨ 34 + s.params.padLen ≤ k → Memory.load t.fb k = Memory.load s.fb k) ∧
    t.wp.toNat = s.params.padTarget ∧ t.ph = .sum ∧ t.busyO = true ∧
    t.en = s.en ∧ t.q = s.q ∧ t.acc = s.acc ∧ t.csum = s.csum ∧ s.sameModelFields t

/-- 42_checksum.md R161: `SUM` puts into `ACC` the exact sum of the words, low byte first, in any order of the words, and
changes nothing else but `PH`. Where a byte has no value it counts with the free value the state has for it. -/
def Obligations.SumAddsTheWordsExactly : Prop :=
  ∀ s : State, ∃ t, exec .sum s = .next t ∧
    t.acc.toNat = ((List.range s.params.nWords).map fun k =>
      (s.frameByte (2 * k)).toNat + 256 * (s.frameByte (2 * k + 1)).toNat).sum ∧
    (∀ f : Nat → Byte, (∀ k, k < s.params.padTarget → Memory.load s.fb k = some (f k)) →
      t.acc.toNat = ((List.range s.params.nWords).map fun k => (f (2 * k)).toNat + 256 * (f (2 * k + 1)).toNat).sum) ∧
    (∀ l : List Nat, l.Perm (List.range s.params.nWords) →
      t.acc = l.foldl (fun acc k => acc + (wordOf (s.frameByte (2 * k)) (s.frameByte (2 * k + 1))).setWidth 32) 0#32) ∧
    t.ph = .fold ∧ t.fb = s.fb ∧ t.en = s.en ∧ t.q = s.q ∧ t.wp = s.wp ∧ t.csum = s.csum ∧ s.sameModelFields t

/-- 42_checksum.md R162: `FOLD` folds once and stays, or changes no register but `PH` and leaves. The fold fits in 17
bits, a second fold always fits in 16, and a fold never makes 0 from another value. -/
def Obligations.FoldFoldsOnceOrLeaves : Prop :=
  ∀ s : State, ∃ t, exec .fold s = .next t ∧
    (0xFFFF < s.acc.toNat → t.acc.toNat = s.acc.toNat / 65536 + s.acc.toNat % 65536 ∧ t.ph = .fold ∧
      t.acc.toNat ≤ 0x1FFFE ∧ t.acc.toNat / 65536 + t.acc.toNat % 65536 ≤ 0xFFFF) ∧
    (s.acc.toNat ≤ 0xFFFF → t.acc = s.acc ∧ t.ph = .cpl) ∧
    (s.acc ≠ 0#32 → t.acc ≠ 0#32) ∧
    t.fb = s.fb ∧ t.en = s.en ∧ t.q = s.q ∧ t.wp = s.wp ∧ t.csum = s.csum ∧ s.sameModelFields t

/-- 42_checksum.md R163: `CPL` complements the low 16 bits; for `ACC` at most `0xFFFF` that is `0xFFFF - ACC`. -/
def Obligations.CplComplementsTheLowHalf : Prop :=
  ∀ s : State, ∃ t, exec .cpl s = .next t ∧
    (∀ i, i < 16 → t.csum.getLsbD i = !s.acc.getLsbD i) ∧
    (s.acc.toNat ≤ 0xFFFF → t.csum.toNat = 0xFFFF - s.acc.toNat) ∧
    t.ph = .append ∧ t.acc = s.acc ∧ t.fb = s.fb ∧ t.en = s.en ∧ t.q = s.q ∧ t.wp = s.wp ∧ s.sameModelFields t

/-- 44_wireframe.md R190: `APPEND` writes the two bytes of `CSUM` at `PAD_TARGET` in the order the parameter says, `WP`
and `PH`, and nothing else; `busy` falls and `done` rises. -/
def Obligations.AppendWritesTheTrailer : Prop :=
  ∀ s : State, ∃ t, exec .append s = .next t ∧
    (s.params.csumOrder = .lowFirst →
      Memory.load t.fb s.params.padTarget = some (s.csum.extractLsb' 0 8) ∧
      Memory.load t.fb (s.params.padTarget + 1) = some (s.csum.extractLsb' 8 8)) ∧
    (s.params.csumOrder = .highFirst →
      Memory.load t.fb s.params.padTarget = some (s.csum.extractLsb' 8 8) ∧
      Memory.load t.fb (s.params.padTarget + 1) = some (s.csum.extractLsb' 0 8)) ∧
    (∀ k, k < s.params.padTarget ∨ s.params.padTarget + 2 ≤ k → Memory.load t.fb k = Memory.load s.fb k) ∧
    t.wp.toNat = s.params.wireLen ∧ t.ph = .done ∧ t.busyO = false ∧ t.doneO = true ∧
    t.en = s.en ∧ t.q = s.q ∧ t.acc = s.acc ∧ t.csum = s.csum ∧ s.sameModelFields t

/-! ## The step -/

/-- 40_sequencer_and_host.md R110, 60_exceptions.md R214: `RESET`, then an acceptable `START`, then the operation of the
phase, exactly one of them; a `READ` sees the state before the step that follows it. -/
def Obligations.StepPriorityIsResetStartPhase : Prop :=
  (∀ (s : State) (p : StepInput) (rest : List Stimulus), s.inputs = .step p :: rest →
    (p.rst = true → step s = exec (.reset p.start) (s.setInputs rest)) ∧
    (p.rst = false → p.start = true → s.ph = .idle ∨ s.ph = .done →
      step s = exec (.start p.enable p.quantum) (s.setInputs rest)) ∧
    (p.rst = false → ¬ (p.start = true ∧ (s.ph = .idle ∨ s.ph = .done)) → p.stall = false →
      step s = exec (phaseInstr s.ph) (s.setInputs rest))) ∧
  (∀ (s : State) (a : BitVec 6) (rest : List Stimulus), s.inputs = .sample a :: rest →
    ∃ t, step s = .next t ∧ s.sameRegisters t ∧
      t.lastRead = some { addr := a, valid := s.rdValidO a, data := s.rdDataO a }) ∧
  phaseInstr .idle = .idle ∧ phaseInstr .build = .build ∧ phaseInstr .pad = .pad ∧ phaseInstr .sum = .sum ∧
  phaseInstr .fold = .fold ∧ phaseInstr .cpl = .cpl ∧ phaseInstr .append = .append ∧ phaseInstr .done = .done

/-- 40_sequencer_and_host.md R117, R118: the successor of each phase, and that there are no other transitions. The `READ`
as a stimulus between steps (R116) is log entry 2's, the stall as a flag of the stimulus (R120) log entry 6's. -/
def Obligations.PhaseOrderIsTheStatedOne : Prop :=
  (∀ s t : State, step s = .next t →
    (∃ a rest, s.inputs = .sample a :: rest ∧ t.ph = s.ph) ∨
    (∃ p rest, s.inputs = .step p :: rest ∧ p.rst = true ∧ t.ph = .idle) ∨
    (∃ p rest, s.inputs = .step p :: rest ∧ p.rst = false ∧ p.start = true ∧ (s.ph = .idle ∨ s.ph = .done) ∧
      t.ph = .build) ∨
    (∃ p rest, s.inputs = .step p :: rest ∧ p.rst = false ∧ p.stall = true ∧ s.busyO = true ∧ t.ph = s.ph) ∨
    ((∀ p rest, s.inputs = .step p :: rest → p.rst = false ∧ (p.start = true → s.busyO = true) ∧
        (p.stall = true → s.busyO = false)) ∧
      (∀ a rest, s.inputs ≠ .sample a :: rest) ∧ t.ph = nextPhase s)) ∧
  (∀ acc : BitVec 32, acc.extractLsb' 16 16 ≠ 0#16 ↔ 0xFFFF < acc.toNat)

/-- 40_sequencer_and_host.md R120: a stall in a busy phase changes nothing, `RESET` is still obeyed and `start_i` still
ignored; in `IDLE` and `DONE` there is nothing to stall. -/
def Obligations.StallChangesNothing : Prop :=
  ∀ (s : State) (p : StepInput) (rest : List Stimulus), s.inputs = .step p :: rest → p.stall = true →
    (s.busyO = true → p.rst = false → step s = .next (s.setInputs rest)) ∧
    (p.rst = true → step s = exec (.reset p.start) (s.setInputs rest)) ∧
    (s.busyO = false → step s = step (s.setInputs (.step { p with stall := false } :: rest)))

/-- 10_state.md R22, R23, 70_reset_and_hazards.md R242: `EN` and `Q` change only by `RESET` and by an accepted `START`,
which takes all sixteen values from the ports; in every other step the ports' values make no difference. -/
def Obligations.ConfigurationIsSampledOnce : Prop :=
  (∀ s t : State, step s = .next t →
    (t.en = s.en ∧ t.q = s.q) ∨
    (∃ p rest, s.inputs = .step p :: rest ∧ p.rst = true ∧ t.en = 0x00#8 ∧ t.q = Quanta.zero) ∨
    (∃ p rest, s.inputs = .step p :: rest ∧ p.rst = false ∧ p.start = true ∧ (s.ph = .idle ∨ s.ph = .done) ∧
      t.en = p.enable ∧ t.q = p.quantum)) ∧
  (∀ (s : State) (p : StepInput) (en : BitVec 8) (q : Quanta) (rest : List Stimulus), s.inputs = .step p :: rest →
    ¬ (p.rst = false ∧ p.start = true ∧ (s.ph = .idle ∨ s.ph = .done)) →
    step s = step (s.setInputs (.step { p with enable := en, quantum := q } :: rest)))

/-- 20_memory.md R63, 40_sequencer_and_host.md R122: no operation writes the parameters, only `READ` makes an observation,
and every step uses up exactly the first stimulus (log entries 1, 2, 3, 5, 8). -/
def Obligations.ParametersAndStimuliAreOnlyRead : Prop :=
  ∀ s t : State, step s = .next t →
    t.params = s.params ∧ t.inputs = s.inputs.tail ∧
    (t.lastRead ≠ s.lastRead → ∃ a rest, s.inputs = .sample a :: rest) ∧
    (t.fbEpoch ≠ s.fbEpoch → ∃ p rest, s.inputs = .step p :: rest ∧
      (p.rst = true ∨ p.start = true ∧ (s.ph = .idle ∨ s.ph = .done)))

/-! ## The invariant -/

/-- The reset state meets the invariant, with any parameters and any environment (10_state.md R34). -/
def Obligations.InvariantHoldsAtReset : Prop :=
  ∀ (p : Config.Params) (l : List Stimulus), Inv { State.reset with params := p, inputs := l }

/-- Every step keeps the invariant: the canonical buffer, no value from `WP` on (10_state.md R27), the write pointer's table
(R24), the frame so far, the accumulator (R25) and the checksum (R26) in every phase. -/
def Obligations.StepKeepsTheInvariant : Prop :=
  ∀ s t : State, Inv s → step s = .next t → Inv t

/-- 40_sequencer_and_host.md R121: the status outputs, in every state that meets the invariant. -/
def Obligations.StatusOutputsAreAsStated : Prop :=
  ∀ s : State, Inv s →
    (s.busyO = true ↔ s.ph ≠ .idle ∧ s.ph ≠ .done) ∧ (s.doneO = true ↔ s.ph = .done) ∧
    s.lenO = s.wp ∧ s.csumO = s.csum ∧
    (s.doneO = true → s.lenO.toNat = s.params.wireLen ∧
      checksumOf (s.memRead 0 s.params.padTarget) = some s.csumO ∧
      (s.params.csumOrder = .lowFirst →
        (s.frameByte s.params.padTarget).toNat + 256 * (s.frameByte (s.params.padTarget + 1)).toNat = s.csumO.toNat)) ∧
    (s.doneO = false → s.ph ≠ .append → s.csumO = 0x0000#16) ∧
    (s.ph = .append → checksumOf (s.memRead 0 s.params.padTarget) = some s.csumO)

/-- 20_memory.md R60: a read becomes valid only in the step that appends the trailer, stops being valid in the step that
takes `START` or `RESET`, for all bytes of the frame together, and while valid returns the frame of the latched
configuration. -/
def Obligations.FrameIsPublishedAtDone : Prop :=
  (∀ (s t : State) (a : BitVec 6), step s = .next t → s.rdValidO a = false → t.rdValidO a = true →
    s.ph = .append ∧ t.wp.toNat = s.params.wireLen) ∧
  (∀ (s t : State) (p : StepInput) (rest : List Stimulus) (a : BitVec 6), s.ph = .done →
    s.inputs = .step p :: rest → p.rst = true ∨ p.start = true → step s = .next t → t.rdValidO a = false) ∧
  (∀ (s : State) (a b : BitVec 6), a.toNat < s.params.wireLen → b.toNat < s.params.wireLen →
    s.rdValidO a = s.rdValidO b) ∧
  (∀ (s : State) (a : BitVec 6), Inv s → s.rdValidO a = true →
    ∃ w, wireFrame s.params s.en s.q = some w ∧ w[a.toNat]? = some (s.rdDataO a))

/-- 44_wireframe.md R193: in `DONE` nothing writes `FB`, `EN`, `Q`, `WP`, `ACC` or `CSUM` but `START` and `RESET`. -/
def Obligations.DoneIsImmutable : Prop :=
  ∀ s t : State, s.ph = .done → step s = .next t →
    s.sameRegisters t ∨
    (∃ p rest, s.inputs = .step p :: rest ∧ p.rst = true ∧ t.ph = .idle) ∨
    (∃ p rest, s.inputs = .step p :: rest ∧ p.rst = false ∧ p.start = true ∧ t.ph = .build)

/-- 44_wireframe.md R195, 20_memory.md R56: from one finished build, every `READ` of every pass shows the frame's byte,
however many there are. -/
def Obligations.OneBuildServesEveryPass : Prop :=
  ∀ (s : State) (k : Nat), Inv s → s.ph = .done → (∀ x ∈ s.inputs, x.noRequest = true) →
    ∃ t w, runSteps k s = .next t ∧ s.sameRegisters t ∧ wireFrame s.params s.en s.q = some w ∧
      ∀ (a : BitVec 6) (rest : List Stimulus), t.inputs = .sample a :: rest → a.toNat < s.params.wireLen →
        ∃ u b, step t = .next u ∧ w[a.toNat]? = some b ∧
          u.lastRead = some { addr := a, valid := true, data := b }

/-! ## Whole builds -/

/-- 44_wireframe.md R191: from any state in `IDLE` or `DONE`, an accepted `START` followed by steps without `RESET` reaches
the finished frame with the (6 + number of folds)-th step that proceeds, under any schedule of stalls, reads and dropped
`START` requests; until then the block is busy, and from then on the frame stays while nothing is requested. -/
def Obligations.WholeBuildIsTheWireFrame : Prop :=
  ∀ (s : State) (p x : StepInput) (pre rest : List Stimulus) (n j : Nat), s.ph = .idle ∨ s.ph = .done →
    s.inputs = .step p :: (pre ++ .step x :: rest) → p.rst = false → p.start = true →
    wordSum (paddedFields s.params p.enable p.quantum) = some n →
    (∀ y ∈ pre, y.noReset = true) → (pre.filter Stimulus.proceeds).length = 5 + foldsFrom n →
    x.rst = false → x.stall = false → (∀ y ∈ rest, y.noRequest = true) →
    (∀ i, i ≤ pre.length → ∃ u, runSteps (1 + i) s = .next u ∧ u.busyO = true ∧ u.doneO = false) ∧
    ∃ t w c, runSteps (1 + (pre.length + 1 + j)) s = .next t ∧
      wireFrame s.params p.enable p.quantum = some w ∧
      checksumOf (paddedFields s.params p.enable p.quantum) = some c ∧
      t.ph = .done ∧ t.en = p.enable ∧ t.q = p.quantum ∧ t.wp.toNat = s.params.wireLen ∧ t.csum = c ∧
      t.memRead 0 s.params.wireLen = w ∧ (∀ k, k < s.params.wireLen → Memory.load t.fb k = w[k]?)

/-- 40_sequencer_and_host.md R119: without stalls and without `RESET` the build is done after exactly 6 + n steps and busy
until then, where n, the number of folds, is 0, 1 or 2; and the rule's three instances. -/
def Obligations.BuildTakesSixStepsPlusTheFolds : Prop :=
  (∀ (s : State) (p : StepInput) (rest : List Stimulus) (n j : Nat), s.ph = .idle ∨ s.ph = .done →
    s.inputs = .step p :: rest → p.rst = false → p.start = true →
    (∀ x ∈ rest, x.noReset = true ∧ x.proceeds = true) →
    wordSum (paddedFields s.params p.enable p.quantum) = some n → j ≤ 6 + foldsFrom n →
    ∃ t, runSteps (1 + j) s = .next t ∧
      (t.doneO = true ↔ j = 6 + foldsFrom n) ∧ (t.busyO = true ↔ j < 6 + foldsFrom n)) ∧
  (∀ n, foldsFrom n ≤ 2 ∧ (foldsFrom n = 0 ↔ n ≤ 0xFFFF)) ∧
  (∃ n, wordSum (paddedFields Config.Params.spec 0x00#8 Quanta.zero) = some n ∧ foldsFrom n = 0) ∧
  (∃ n, wordSum (paddedFields Config.Params.spec 0x89#8
    #v[100#16, 0#16, 0#16, 0#16, 0#16, 0#16, 0#16, 65535#16]) = some n ∧ foldsFrom n = 1) ∧
  (∃ n, wordSum (paddedFields Config.Params.spec 0xFF#8 #v[0xFFFF#16, 0xFFFF#16, 0xFFFF#16, 0xFFFF#16, 0xFFFF#16,
    0xFFFF#16, 0xFFFF#16, 0xAA69#16]) = some n ∧ foldsFrom n = 2)

/-- 10_state.md R33, 44_wireframe.md R194, 42_checksum.md R167: two builds of one configuration, begun in any two states
and run under any two schedules of stalls and reads, end with the same registers and the same readable bytes: nothing
persists. -/
def Obligations.NothingPersistsAcrossBuilds : Prop :=
  ∀ (s₁ s₂ : State) (p₁ p₂ : StepInput) (rest₁ rest₂ : List Stimulus) (t₁ t₂ : State),
    s₁.params = s₂.params → p₁.enable = p₂.enable → p₁.quantum = p₂.quantum →
    (s₁.ph = .idle ∨ s₁.ph = .done) → (s₂.ph = .idle ∨ s₂.ph = .done) →
    s₁.inputs = .step p₁ :: rest₁ → s₂.inputs = .step p₂ :: rest₂ →
    p₁.rst = false → p₂.rst = false → p₁.start = true → p₂.start = true →
    (∀ x ∈ rest₁, x.noRequest = true) → (∀ x ∈ rest₂, x.noRequest = true) →
    8 ≤ (rest₁.filter Stimulus.proceeds).length → 8 ≤ (rest₂.filter Stimulus.proceeds).length →
    runSteps (1 + rest₁.length) s₁ = .next t₁ →
    runSteps (1 + rest₂.length) s₂ = .next t₂ →
    t₁.ph = t₂.ph ∧ t₁.en = t₂.en ∧ t₁.q = t₂.q ∧ t₁.wp = t₂.wp ∧ t₁.acc = t₂.acc ∧ t₁.csum = t₂.csum ∧
    (∀ k, k < s₁.params.wireLen → Memory.load t₁.fb k = Memory.load t₂.fb k) ∧
    (∀ a, t₁.rdValidO a = t₂.rdValidO a) ∧ (∀ a, t₁.rdValidO a = true → t₁.rdDataO a = t₂.rdDataO a)

/-- 42_checksum.md R162, R165: from any value of `ACC`, `FOLD` is left after at most two folds with the value of the whole
loop. -/
def Obligations.FoldIsLeftAfterAtMostTwoFolds : Prop :=
  (∀ s : State, s.ph = .fold → (∀ x ∈ s.inputs, x.noRequest = true ∧ x.proceeds = true) →
    ∃ j t, j ≤ 3 ∧ runSteps j s = .next t ∧ t.ph = .cpl ∧ t.acc.toNat = foldAll s.acc.toNat ∧
      t.acc.toNat ≤ 0xFFFF) ∧
  (∀ acc : BitVec 32, (foldOnce acc).toNat ≤ 0x1FFFE ∧ (foldOnce (foldOnce acc)).toNat ≤ 0xFFFF) ∧
  (∀ acc : BitVec 32, acc.toNat ≤ 0x9964D → (foldOnce acc).toNat ≤ 0x10008 ∧
    (0xFFFF < (foldOnce acc).toNat → (foldOnce (foldOnce acc)).toNat ≤ 0x9)) ∧
  (∀ f : Nat → Byte, (sumWords32 f 30).toNat ≤ 0x1DFFE2) ∧
  (∀ (p : Config.Params) (en : BitVec 8) (q : Quanta) (n : Nat), wordSum (paddedFields p en q) = some n → n ≤ 0x9964D)

/-! ## The frame and its checksum as functions -/

/-- 20_memory.md R57, 30_encoding.md R80 to R89, 44_wireframe.md R192: every byte of the frame, by offset, and the
length. -/
def Obligations.WireFrameIsTheWireFormatTable : Prop :=
  ∀ (p : Config.Params) (en : BitVec 8) (q : Quanta), ∃ w c, wireFrame p en q = some w ∧
    checksumOf (paddedFields p en q) = some c ∧ w.length = 34 + p.padLen + 2 ∧
    w.take 16 = [0x01#8, 0x80#8, 0xC2#8, 0x00#8, 0x00#8, 0x01#8, 0x01#8, 0x02#8, 0x03#8, 0x04#8, 0x05#8, 0x06#8,
      0x88#8, 0x08#8, 0x01#8, 0x01#8] ∧
    w[16]? = some 0x00#8 ∧ w[17]? = some en ∧
    (∀ i : Fin 8, w[18 + 2 * i.val]? = some (q[i].extractLsb' 8 8) ∧
      w[19 + 2 * i.val]? = some (q[i].extractLsb' 0 8)) ∧
    (∀ k, 34 ≤ k → k < 34 + p.padLen → w[k]? = some 0x00#8) ∧
    (p.csumOrder = .lowFirst →
      w[34 + p.padLen]? = some (c.extractLsb' 0 8) ∧ w[35 + p.padLen]? = some (c.extractLsb' 8 8)) ∧
    (p.csumOrder = .highFirst →
      w[34 + p.padLen]? = some (c.extractLsb' 8 8) ∧ w[35 + p.padLen]? = some (c.extractLsb' 0 8))

/-- 41_builder.md R142: the source's loop over the classes, in any order, gives `EN` itself, and the two bytes read as a
big-endian number are `EN`. -/
def Obligations.ClassEnableLoopGivesTheEnableByte : Prop :=
  ∀ (en : BitVec 8) (l : List (Fin 8)), l.Perm (List.finRange 8) →
    classEnableByte en l = en ∧ classEnableVector en = be16 (en.setWidth 16)

/-- 42_checksum.md R160: the checksum of an even number of bytes is the complement of the folded exact sum, an odd number
is refused, and the fold is the stated loop. -/
def Obligations.ChecksumIsDefinedOnEvenLengths : Prop :=
  (∀ (b : List Byte) (n : Nat), b.length = 2 * n → ∃ c, checksumOf b = some c ∧
    c.toNat = 0xFFFF - foldAll (((List.range n).map fun k =>
      (b.getD (2 * k) 0#8).toNat + 256 * (b.getD (2 * k + 1) 0#8).toNat).sum)) ∧
  (∀ b : List Byte, b.length % 2 = 1 → checksumOf b = none) ∧
  (∀ acc : Nat, foldAll acc = if 0xFFFF < acc then foldAll (acc / 65536 + acc % 65536) else acc)

/-- 42_checksum.md R164: the closed form of the sum and of the checksum, whatever `PAD_LEN` is; its range; and that
exchanging quanta between classes does not change the checksum. -/
def Obligations.ChecksumHasTheClosedForm : Prop :=
  (∀ (p : Config.Params) (en : BitVec 8) (q : Quanta),
    wordSum (paddedFields p en q) = some (closedSum en q) ∧
    checksumOf (paddedFields p en q) = some (~~~ (BitVec.ofNat 16 (foldAll (closedSum en q)))) ∧
    0x9755 ≤ closedSum en q ∧ closedSum en q ≤ 0x9964D) ∧
  closedSum 0x00#8 Quanta.zero = 0x9755 ∧ closedSum 0xFF#8 (Vector.replicate 8 0xFFFF#16) = 0x9964D ∧
  (∀ (p p' : Config.Params) (en : BitVec 8) (q q' : Quanta), q.toList.Perm q'.toList →
    checksumOf (paddedFields p en q) = checksumOf (paddedFields p' en q'))

/-- 42_checksum.md R166: the source's "one fold plus one additional add", and the 16-bit accumulator with end-around
carry, give the value the fold loop gives: the representative of the sum modulo `0xFFFF` that is 0 only for the sum 0. -/
def Obligations.ThreeFoldProceduresAgree : Prop :=
  (∀ acc : Nat, acc ≤ 0x1DFFE2 → oneFoldOneAdd acc = foldAll acc) ∧
  (∀ (b : List Byte) (n : Nat), wordSum b = some n → endAroundSum b 0 = foldAll n) ∧
  (∀ n : Nat, foldAll n ≤ 0xFFFF ∧ foldAll n % 0xFFFF = n % 0xFFFF ∧ (foldAll n = 0 ↔ n = 0))

/-- 42_checksum.md R168: the self-verification property, in its numeric form for both trailer orders and over the bytes of
the frame for `low_first`; and the spec's example of its failure for `high_first`. -/
def Obligations.FrameVerifiesItself : Prop :=
  (∀ (p : Config.Params) (en : BitVec 8) (q : Quanta) (n : Nat) (c : Half), wordSum (paddedFields p en q) = some n →
    checksumOf (paddedFields p en q) = some c →
    foldAll (n + c.toNat) = 0xFFFF ∧
    (p.csumOrder = .lowFirst → ∀ w, wireFrame p en q = some w →
      (∃ m, wordSum w = some m ∧ foldAll m = 0xFFFF) ∧ checksumOf w = some 0x0000#16)) ∧
  (∃ w m, wireFrame { Config.Params.spec with csumOrder := .highFirst } 0x89#8
      #v[100#16, 0#16, 0#16, 0#16, 0#16, 0#16, 0#16, 65535#16] = some w ∧ wordSum w = some m ∧ foldAll m = 0x2DD2)

/-- 42_checksum.md R169: the checksum is never `0xFFFF`, takes every other value, and is 0 exactly when the folded sum is
`0xFFFF`; so also in every state that meets the invariant. -/
def Obligations.ChecksumIsNeverAllOnes : Prop :=
  (∀ (p : Config.Params) (en : BitVec 8) (q : Quanta) (c : Half), checksumOf (paddedFields p en q) = some c →
    c ≠ 0xFFFF#16 ∧ (c = 0x0000#16 ↔ foldAll (closedSum en q) = 0xFFFF)) ∧
  (∀ (p : Config.Params) (c : Half), c ≠ 0xFFFF#16 → ∃ en q, checksumOf (paddedFields p en q) = some c) ∧
  (∀ s : State, Inv s → s.csum ≠ 0xFFFF#16)

/-! ## The frame buffer -/

/-- 20_memory.md R64: what `MemWrite` writes `MemRead` reads back, every other byte and every register is as before, and
the canonical form is kept and makes equal contents equal data. -/
def Obligations.FrameBufferReadsBackWhatWasWritten : Prop :=
  (∀ (s : State) (addr : Nat) (v : List Byte),
    (s.memWrite addr v).memRead addr v.length = v ∧
    (∀ k, k < addr ∨ addr + v.length ≤ k → Memory.load (s.memWrite addr v).fb k = Memory.load s.fb k) ∧
    (Memory.wf s.fb = true → Memory.wf (s.memWrite addr v).fb = true) ∧
    (s.memWrite addr v).ph = s.ph ∧ (s.memWrite addr v).en = s.en ∧ (s.memWrite addr v).q = s.q ∧
    (s.memWrite addr v).wp = s.wp ∧ (s.memWrite addr v).acc = s.acc ∧ (s.memWrite addr v).csum = s.csum) ∧
  (∀ m m' : Memory, Memory.wf m = true → Memory.wf m' = true → (∀ k, Memory.load m k = Memory.load m' k) → m = m')

/-- 43_padder.md R182, 30_encoding.md R94 (a) to (c): in `DONE` the padding bytes and the high byte of the class-enable
vector are zero and the ethertype and opcode are the constants, whatever was configured. -/
def Obligations.ReservedBytesAreConstantInDone : Prop :=
  ∀ s : State, Inv s → s.ph = .done →
    (∀ k, 34 ≤ k → k < 34 + s.params.padLen → Memory.load s.fb k = some 0x00#8) ∧
    Memory.load s.fb 16 = some 0x00#8 ∧
    Memory.load s.fb 12 = some 0x88#8 ∧ Memory.load s.fb 13 = some 0x08#8 ∧
    Memory.load s.fb 14 = some 0x01#8 ∧ Memory.load s.fb 15 = some 0x01#8

/-- 10_state.md R27: no byte of `FB` from `WP` on has a value (so none in `IDLE`), in `DONE` the buffer is the frame of the
latched configuration and only `RESET` and `START` end that, and outside `DONE` nothing can read it. -/
def Obligations.FrameBufferHasValuesOnlyBelowTheWritePointer : Prop :=
  (∀ s : State, Inv s → (∀ k, s.wp.toNat ≤ k → Memory.load s.fb k = none) ∧
    (s.ph = .idle → ∀ k, Memory.load s.fb k = none) ∧
    (s.ph = .done → ∃ w, wireFrame s.params s.en s.q = some w ∧ ∀ k, Memory.load s.fb k = w[k]?)) ∧
  (∀ s t : State, s.ph = .done → step s = .next t →
    (∃ p rest, s.inputs = .step p :: rest ∧ (p.rst = true ∨ p.start = true)) ∨
    (t.ph = .done ∧ t.fb = s.fb ∧ t.en = s.en ∧ t.q = s.q ∧ t.params = s.params)) ∧
  (∀ (s : State) (a : BitVec 6), s.ph ≠ .done → s.rdValidO a = false)

/-- 10_state.md R20, R33: the seven items are the whole state. In a state that meets the invariant, the seven items after a
step are a function of the seven items before it, of the parameters, and of what is on the ports in that step: the model's
other fields (log entries 1 to 4) and the later stimuli make no difference. -/
def Obligations.NextBlockDependsOnTheBlockAndThePorts : Prop :=
  ∀ s u t v : State, Inv s → s.toBlock = u.toBlock → s.params = u.params → s.inputs.head? = u.inputs.head? →
    step s = .next t → step u = .next v → t.toBlock = v.toBlock
end

