-- ==== Sys2Proof/Laws/State.lean ====
section
/-! SUPPORT. What each update of State does to each field: one lemma per field per update. -/

namespace Sys2Proof.Machine

@[simp] theorem State.setPh_ph (s : State) (p : Phase) : (s.setPh p).ph = p := rfl
@[simp] theorem State.setPh_en (s : State) (p : Phase) : (s.setPh p).en = s.en := rfl
@[simp] theorem State.setPh_q (s : State) (p : Phase) : (s.setPh p).q = s.q := rfl
@[simp] theorem State.setPh_wp (s : State) (p : Phase) : (s.setPh p).wp = s.wp := rfl
@[simp] theorem State.setPh_acc (s : State) (p : Phase) : (s.setPh p).acc = s.acc := rfl
@[simp] theorem State.setPh_csum (s : State) (p : Phase) : (s.setPh p).csum = s.csum := rfl
@[simp] theorem State.setPh_fb (s : State) (p : Phase) : (s.setPh p).fb = s.fb := rfl
@[simp] theorem State.setPh_params (s : State) (p : Phase) : (s.setPh p).params = s.params := rfl
@[simp] theorem State.setPh_inputs (s : State) (p : Phase) : (s.setPh p).inputs = s.inputs := rfl
@[simp] theorem State.setPh_lastRead (s : State) (p : Phase) : (s.setPh p).lastRead = s.lastRead := rfl
@[simp] theorem State.setPh_draws (s : State) (p : Phase) : (s.setPh p).draws = s.draws := rfl
@[simp] theorem State.setPh_fbEpoch (s : State) (p : Phase) : (s.setPh p).fbEpoch = s.fbEpoch := rfl

@[simp] theorem State.setWp_ph (s : State) (n : Nat) : (s.setWp n).ph = s.ph := rfl
@[simp] theorem State.setWp_en (s : State) (n : Nat) : (s.setWp n).en = s.en := rfl
@[simp] theorem State.setWp_q (s : State) (n : Nat) : (s.setWp n).q = s.q := rfl
@[simp] theorem State.setWp_wp (s : State) (n : Nat) : (s.setWp n).wp = BitVec.ofNat 7 n := rfl
@[simp] theorem State.setWp_acc (s : State) (n : Nat) : (s.setWp n).acc = s.acc := rfl
@[simp] theorem State.setWp_csum (s : State) (n : Nat) : (s.setWp n).csum = s.csum := rfl
@[simp] theorem State.setWp_fb (s : State) (n : Nat) : (s.setWp n).fb = s.fb := rfl
@[simp] theorem State.setWp_params (s : State) (n : Nat) : (s.setWp n).params = s.params := rfl
@[simp] theorem State.setWp_inputs (s : State) (n : Nat) : (s.setWp n).inputs = s.inputs := rfl
@[simp] theorem State.setWp_lastRead (s : State) (n : Nat) : (s.setWp n).lastRead = s.lastRead := rfl
@[simp] theorem State.setWp_draws (s : State) (n : Nat) : (s.setWp n).draws = s.draws := rfl
@[simp] theorem State.setWp_fbEpoch (s : State) (n : Nat) : (s.setWp n).fbEpoch = s.fbEpoch := rfl

@[simp] theorem State.setAcc_ph (s : State) (v : BitVec 32) : (s.setAcc v).ph = s.ph := rfl
@[simp] theorem State.setAcc_en (s : State) (v : BitVec 32) : (s.setAcc v).en = s.en := rfl
@[simp] theorem State.setAcc_q (s : State) (v : BitVec 32) : (s.setAcc v).q = s.q := rfl
@[simp] theorem State.setAcc_wp (s : State) (v : BitVec 32) : (s.setAcc v).wp = s.wp := rfl
@[simp] theorem State.setAcc_acc (s : State) (v : BitVec 32) : (s.setAcc v).acc = v := rfl
@[simp] theorem State.setAcc_csum (s : State) (v : BitVec 32) : (s.setAcc v).csum = s.csum := rfl
@[simp] theorem State.setAcc_fb (s : State) (v : BitVec 32) : (s.setAcc v).fb = s.fb := rfl
@[simp] theorem State.setAcc_params (s : State) (v : BitVec 32) : (s.setAcc v).params = s.params := rfl
@[simp] theorem State.setAcc_inputs (s : State) (v : BitVec 32) : (s.setAcc v).inputs = s.inputs := rfl
@[simp] theorem State.setAcc_lastRead (s : State) (v : BitVec 32) : (s.setAcc v).lastRead = s.lastRead := rfl
@[simp] theorem State.setAcc_draws (s : State) (v : BitVec 32) : (s.setAcc v).draws = s.draws := rfl
@[simp] theorem State.setAcc_fbEpoch (s : State) (v : BitVec 32) : (s.setAcc v).fbEpoch = s.fbEpoch := rfl

@[simp] theorem State.setCsum_ph (s : State) (v : BitVec 16) : (s.setCsum v).ph = s.ph := rfl
@[simp] theorem State.setCsum_en (s : State) (v : BitVec 16) : (s.setCsum v).en = s.en := rfl
@[simp] theorem State.setCsum_q (s : State) (v : BitVec 16) : (s.setCsum v).q = s.q := rfl
@[simp] theorem State.setCsum_wp (s : State) (v : BitVec 16) : (s.setCsum v).wp = s.wp := rfl
@[simp] theorem State.setCsum_acc (s : State) (v : BitVec 16) : (s.setCsum v).acc = s.acc := rfl
@[simp] theorem State.setCsum_csum (s : State) (v : BitVec 16) : (s.setCsum v).csum = v := rfl
@[simp] theorem State.setCsum_fb (s : State) (v : BitVec 16) : (s.setCsum v).fb = s.fb := rfl
@[simp] theorem State.setCsum_params (s : State) (v : BitVec 16) : (s.setCsum v).params = s.params := rfl
@[simp] theorem State.setCsum_inputs (s : State) (v : BitVec 16) : (s.setCsum v).inputs = s.inputs := rfl
@[simp] theorem State.setCsum_lastRead (s : State) (v : BitVec 16) : (s.setCsum v).lastRead = s.lastRead := rfl
@[simp] theorem State.setCsum_draws (s : State) (v : BitVec 16) : (s.setCsum v).draws = s.draws := rfl
@[simp] theorem State.setCsum_fbEpoch (s : State) (v : BitVec 16) : (s.setCsum v).fbEpoch = s.fbEpoch := rfl

@[simp] theorem State.memWrite_ph (s : State) (a : Nat) (v : List Byte) : (s.memWrite a v).ph = s.ph := rfl
@[simp] theorem State.memWrite_en (s : State) (a : Nat) (v : List Byte) : (s.memWrite a v).en = s.en := rfl
@[simp] theorem State.memWrite_q (s : State) (a : Nat) (v : List Byte) : (s.memWrite a v).q = s.q := rfl
@[simp] theorem State.memWrite_wp (s : State) (a : Nat) (v : List Byte) : (s.memWrite a v).wp = s.wp := rfl
@[simp] theorem State.memWrite_acc (s : State) (a : Nat) (v : List Byte) : (s.memWrite a v).acc = s.acc := rfl
@[simp] theorem State.memWrite_csum (s : State) (a : Nat) (v : List Byte) : (s.memWrite a v).csum = s.csum := rfl
@[simp] theorem State.memWrite_fb (s : State) (a : Nat) (v : List Byte) : (s.memWrite a v).fb = Memory.storeBytes s.fb a v := rfl
@[simp] theorem State.memWrite_params (s : State) (a : Nat) (v : List Byte) : (s.memWrite a v).params = s.params := rfl
@[simp] theorem State.memWrite_inputs (s : State) (a : Nat) (v : List Byte) : (s.memWrite a v).inputs = s.inputs := rfl
@[simp] theorem State.memWrite_lastRead (s : State) (a : Nat) (v : List Byte) : (s.memWrite a v).lastRead = s.lastRead := rfl
@[simp] theorem State.memWrite_draws (s : State) (a : Nat) (v : List Byte) : (s.memWrite a v).draws = s.draws := rfl
@[simp] theorem State.memWrite_fbEpoch (s : State) (a : Nat) (v : List Byte) : (s.memWrite a v).fbEpoch = s.fbEpoch := rfl

@[simp] theorem State.latch_ph (s : State) (en : BitVec 8) (q : Quanta) : (s.latch en q).ph = s.ph := rfl
@[simp] theorem State.latch_en (s : State) (en : BitVec 8) (q : Quanta) : (s.latch en q).en = en := rfl
@[simp] theorem State.latch_q (s : State) (en : BitVec 8) (q : Quanta) : (s.latch en q).q = q := rfl
@[simp] theorem State.latch_wp (s : State) (en : BitVec 8) (q : Quanta) : (s.latch en q).wp = s.wp := rfl
@[simp] theorem State.latch_acc (s : State) (en : BitVec 8) (q : Quanta) : (s.latch en q).acc = s.acc := rfl
@[simp] theorem State.latch_csum (s : State) (en : BitVec 8) (q : Quanta) : (s.latch en q).csum = s.csum := rfl
@[simp] theorem State.latch_fb (s : State) (en : BitVec 8) (q : Quanta) : (s.latch en q).fb = s.fb := rfl
@[simp] theorem State.latch_params (s : State) (en : BitVec 8) (q : Quanta) : (s.latch en q).params = s.params := rfl
@[simp] theorem State.latch_inputs (s : State) (en : BitVec 8) (q : Quanta) : (s.latch en q).inputs = s.inputs := rfl
@[simp] theorem State.latch_lastRead (s : State) (en : BitVec 8) (q : Quanta) : (s.latch en q).lastRead = s.lastRead := rfl
@[simp] theorem State.latch_draws (s : State) (en : BitVec 8) (q : Quanta) : (s.latch en q).draws = s.draws := rfl
@[simp] theorem State.latch_fbEpoch (s : State) (en : BitVec 8) (q : Quanta) : (s.latch en q).fbEpoch = s.fbEpoch := rfl

@[simp] theorem State.clearWork_ph (s : State) : s.clearWork.ph = s.ph := rfl
@[simp] theorem State.clearWork_en (s : State) : s.clearWork.en = s.en := rfl
@[simp] theorem State.clearWork_q (s : State) : s.clearWork.q = s.q := rfl
@[simp] theorem State.clearWork_wp (s : State) : s.clearWork.wp = 0#7 := rfl
@[simp] theorem State.clearWork_acc (s : State) : s.clearWork.acc = 0#32 := rfl
@[simp] theorem State.clearWork_csum (s : State) : s.clearWork.csum = 0x0000#16 := rfl
@[simp] theorem State.clearWork_fb (s : State) : s.clearWork.fb = s.fb := rfl
@[simp] theorem State.clearWork_params (s : State) : s.clearWork.params = s.params := rfl
@[simp] theorem State.clearWork_inputs (s : State) : s.clearWork.inputs = s.inputs := rfl
@[simp] theorem State.clearWork_lastRead (s : State) : s.clearWork.lastRead = s.lastRead := rfl
@[simp] theorem State.clearWork_draws (s : State) : s.clearWork.draws = s.draws := rfl
@[simp] theorem State.clearWork_fbEpoch (s : State) : s.clearWork.fbEpoch = s.fbEpoch := rfl

@[simp] theorem State.forgetFrame_ph (s : State) : s.forgetFrame.ph = s.ph := rfl
@[simp] theorem State.forgetFrame_en (s : State) : s.forgetFrame.en = s.en := rfl
@[simp] theorem State.forgetFrame_q (s : State) : s.forgetFrame.q = s.q := rfl
@[simp] theorem State.forgetFrame_wp (s : State) : s.forgetFrame.wp = s.wp := rfl
@[simp] theorem State.forgetFrame_acc (s : State) : s.forgetFrame.acc = s.acc := rfl
@[simp] theorem State.forgetFrame_csum (s : State) : s.forgetFrame.csum = s.csum := rfl
@[simp] theorem State.forgetFrame_fb (s : State) : s.forgetFrame.fb = [] := rfl
@[simp] theorem State.forgetFrame_params (s : State) : s.forgetFrame.params = s.params := rfl
@[simp] theorem State.forgetFrame_inputs (s : State) : s.forgetFrame.inputs = s.inputs := rfl
@[simp] theorem State.forgetFrame_lastRead (s : State) : s.forgetFrame.lastRead = s.lastRead := rfl
@[simp] theorem State.forgetFrame_draws (s : State) : s.forgetFrame.draws = s.draws := rfl
@[simp] theorem State.forgetFrame_fbEpoch (s : State) : s.forgetFrame.fbEpoch = s.fbEpoch + 1 := rfl

@[simp] theorem State.setInputs_ph (s : State) (l : List Stimulus) : (s.setInputs l).ph = s.ph := rfl
@[simp] theorem State.setInputs_en (s : State) (l : List Stimulus) : (s.setInputs l).en = s.en := rfl
@[simp] theorem State.setInputs_q (s : State) (l : List Stimulus) : (s.setInputs l).q = s.q := rfl
@[simp] theorem State.setInputs_wp (s : State) (l : List Stimulus) : (s.setInputs l).wp = s.wp := rfl
@[simp] theorem State.setInputs_acc (s : State) (l : List Stimulus) : (s.setInputs l).acc = s.acc := rfl
@[simp] theorem State.setInputs_csum (s : State) (l : List Stimulus) : (s.setInputs l).csum = s.csum := rfl
@[simp] theorem State.setInputs_fb (s : State) (l : List Stimulus) : (s.setInputs l).fb = s.fb := rfl
@[simp] theorem State.setInputs_params (s : State) (l : List Stimulus) : (s.setInputs l).params = s.params := rfl
@[simp] theorem State.setInputs_inputs (s : State) (l : List Stimulus) : (s.setInputs l).inputs = l := rfl
@[simp] theorem State.setInputs_lastRead (s : State) (l : List Stimulus) : (s.setInputs l).lastRead = s.lastRead := rfl
@[simp] theorem State.setInputs_draws (s : State) (l : List Stimulus) : (s.setInputs l).draws = s.draws := rfl
@[simp] theorem State.setInputs_fbEpoch (s : State) (l : List Stimulus) : (s.setInputs l).fbEpoch = s.fbEpoch := rfl

@[simp] theorem State.recordRead_ph (s : State) (r : ReadSample) : (s.recordRead r).ph = s.ph := rfl
@[simp] theorem State.recordRead_en (s : State) (r : ReadSample) : (s.recordRead r).en = s.en := rfl
@[simp] theorem State.recordRead_q (s : State) (r : ReadSample) : (s.recordRead r).q = s.q := rfl
@[simp] theorem State.recordRead_wp (s : State) (r : ReadSample) : (s.recordRead r).wp = s.wp := rfl
@[simp] theorem State.recordRead_acc (s : State) (r : ReadSample) : (s.recordRead r).acc = s.acc := rfl
@[simp] theorem State.recordRead_csum (s : State) (r : ReadSample) : (s.recordRead r).csum = s.csum := rfl
@[simp] theorem State.recordRead_fb (s : State) (r : ReadSample) : (s.recordRead r).fb = s.fb := rfl
@[simp] theorem State.recordRead_params (s : State) (r : ReadSample) : (s.recordRead r).params = s.params := rfl
@[simp] theorem State.recordRead_inputs (s : State) (r : ReadSample) : (s.recordRead r).inputs = s.inputs := rfl
@[simp] theorem State.recordRead_lastRead (s : State) (r : ReadSample) : (s.recordRead r).lastRead = some r := rfl
@[simp] theorem State.recordRead_draws (s : State) (r : ReadSample) : (s.recordRead r).draws = if r.valid then s.draws else s.draws + 1 := rfl
@[simp] theorem State.recordRead_fbEpoch (s : State) (r : ReadSample) : (s.recordRead r).fbEpoch = s.fbEpoch := rfl

@[simp] theorem State.restart_ph (s : State) (en : BitVec 8) (q : Quanta) : (s.restart en q).ph = s.ph := rfl
@[simp] theorem State.restart_en (s : State) (en : BitVec 8) (q : Quanta) : (s.restart en q).en = en := rfl
@[simp] theorem State.restart_q (s : State) (en : BitVec 8) (q : Quanta) : (s.restart en q).q = q := rfl
@[simp] theorem State.restart_wp (s : State) (en : BitVec 8) (q : Quanta) : (s.restart en q).wp = 0#7 := rfl
@[simp] theorem State.restart_acc (s : State) (en : BitVec 8) (q : Quanta) : (s.restart en q).acc = 0#32 := rfl
@[simp] theorem State.restart_csum (s : State) (en : BitVec 8) (q : Quanta) : (s.restart en q).csum = 0x0000#16 := rfl
@[simp] theorem State.restart_fb (s : State) (en : BitVec 8) (q : Quanta) : (s.restart en q).fb = [] := rfl
@[simp] theorem State.restart_params (s : State) (en : BitVec 8) (q : Quanta) : (s.restart en q).params = s.params := rfl
@[simp] theorem State.restart_inputs (s : State) (en : BitVec 8) (q : Quanta) : (s.restart en q).inputs = s.inputs := rfl
@[simp] theorem State.restart_lastRead (s : State) (en : BitVec 8) (q : Quanta) : (s.restart en q).lastRead = s.lastRead := rfl
@[simp] theorem State.restart_draws (s : State) (en : BitVec 8) (q : Quanta) : (s.restart en q).draws = s.draws := rfl
@[simp] theorem State.restart_fbEpoch (s : State) (en : BitVec 8) (q : Quanta) : (s.restart en q).fbEpoch = s.fbEpoch + 1 := rfl

/-! Updates that leave the block as it is. -/

@[simp] theorem State.setInputs_toBlock (s : State) (l : List Stimulus) : (s.setInputs l).toBlock = s.toBlock := rfl
@[simp] theorem State.recordRead_toBlock (s : State) (r : ReadSample) : (s.recordRead r).toBlock = s.toBlock := rfl

end Sys2Proof.Machine
end

