-- ==== Sys2Proof/Laws/Memory.lean ====
section
/-! SUPPORT. The laws of the frame buffer: read over write, and the canonical form. -/

namespace Sys2Proof.Machine

theorem Memory.load_nil (a : Nat) : Memory.load [] a = none := rfl

theorem Memory.load_cons (c : Host.Cell) (m : Memory) (a : Nat) :
    Memory.load (c :: m) a = if c.1 = a then some c.2 else Memory.load m a := rfl

/-- A read after a write: the written byte at its address, the old byte everywhere else. -/
theorem Memory.load_store (m : Memory) (a : Nat) (b : Byte) (k : Nat) :
    Memory.load (Memory.store m a b) k = if k = a then some b else Memory.load m k := by
  induction m with
  | nil => simp only [Memory.store, Memory.load_cons, Memory.load_nil, eq_comm]
  | cons c m ih =>
    simp only [Memory.store]
    split
    · simp only [Memory.load_cons, eq_comm]
    · split
      · rename_i h
        simp only [Memory.load_cons, h]
        by_cases hk : k = c.1 <;> simp [hk, eq_comm]
      · rename_i h
        simp only [Memory.load_cons, ih]
        by_cases hk : c.1 = k
        · have : ¬ k = a := by omega
          simp [hk, this]
        · simp [hk]

/-- `MemWrite` (20_memory.md R64): byte `j` of the sequence at `a + j`, everything else unchanged. -/
theorem Memory.load_storeBytes (m : Memory) (a : Nat) (v : List Byte) (k : Nat) :
    Memory.load (Memory.storeBytes m a v) k =
      if a ≤ k ∧ k < a + v.length then v[k - a]? else Memory.load m k := by
  induction v generalizing m a with
  | nil =>
    have : ¬ (a ≤ k ∧ k < a + ([] : List Byte).length) := by simp
    rw [if_neg this]
    rfl
  | cons b v ih =>
    rw [Memory.storeBytes, ih, Memory.load_store]
    rcases Nat.lt_trichotomy k a with h | h | h
    · have h1 : ¬ (a + 1 ≤ k ∧ k < a + 1 + v.length) := by omega
      have h2 : ¬ (a ≤ k ∧ k < a + (b :: v).length) := by omega
      have h3 : ¬ k = a := by omega
      rw [if_neg h1, if_neg h2, if_neg h3]
    · subst h
      have h1 : ¬ (k + 1 ≤ k ∧ k < k + 1 + v.length) := by omega
      simp
    · by_cases h1 : k < a + 1 + v.length
      · have h2 : a + 1 ≤ k ∧ k < a + 1 + v.length := by omega
        have h3 : a ≤ k ∧ k < a + (b :: v).length := by simp; omega
        have h4 : k - a = (k - (a + 1)) + 1 := by omega
        rw [if_pos h2, if_pos h3, h4, List.getElem?_cons_succ]
      · have h2 : ¬ (a + 1 ≤ k ∧ k < a + 1 + v.length) := by omega
        have h3 : ¬ (a ≤ k ∧ k < a + (b :: v).length) := by simp; omega
        have h4 : ¬ k = a := by omega
        rw [if_neg h2, if_neg h3, if_neg h4]

theorem Memory.load_storeBytes_inside (m : Memory) (a : Nat) (v : List Byte) (k : Nat) (h1 : a ≤ k)
    (h2 : k < a + v.length) : Memory.load (Memory.storeBytes m a v) k = v[k - a]? := by
  rw [Memory.load_storeBytes, if_pos ⟨h1, h2⟩]

theorem Memory.load_storeBytes_outside (m : Memory) (a : Nat) (v : List Byte) (k : Nat)
    (h : k < a ∨ a + v.length ≤ k) : Memory.load (Memory.storeBytes m a v) k = Memory.load m k := by
  have : ¬ (a ≤ k ∧ k < a + v.length) := by omega
  rw [Memory.load_storeBytes, if_neg this]

/-- The cells after a write are the old ones and the written one. -/
theorem Memory.mem_store {m : Memory} {a : Nat} {b : Byte} {c : Host.Cell} (h : c ∈ Memory.store m a b) :
    c = (a, b) ∨ c ∈ m := by
  induction m with
  | nil => simpa [Memory.store] using h
  | cons d m ih =>
    simp only [Memory.store] at h
    split at h
    · simpa using h
    · split at h
      · rcases List.mem_cons.mp h with h | h
        · exact .inl h
        · exact .inr (List.mem_cons_of_mem _ h)
      · rcases List.mem_cons.mp h with h | h
        · exact .inr (by simp [h])
        · rcases ih h with h | h
          · exact .inl h
          · exact .inr (List.mem_cons_of_mem _ h)

theorem Memory.wf_store (m : Memory) (a : Nat) (b : Byte) (h : Memory.wf m = true) :
    Memory.wf (Memory.store m a b) = true := by
  induction m with
  | nil => simp [Memory.store, Memory.wf]
  | cons c m ih =>
    simp only [Memory.wf, Bool.and_eq_true, List.all_eq_true, decide_eq_true_eq] at h
    obtain ⟨hc, hm⟩ := h
    simp only [Memory.store]
    split
    · rename_i hlt
      simp only [Memory.wf, Bool.and_eq_true, List.all_eq_true, decide_eq_true_eq, List.mem_cons]
      refine ⟨?_, hc, hm⟩
      rintro d (rfl | hd)
      · exact hlt
      · exact Nat.lt_trans hlt (hc d hd)
    · split
      · rename_i heq
        simp only [Memory.wf, Bool.and_eq_true, List.all_eq_true, decide_eq_true_eq]
        exact ⟨fun d hd => by have := hc d hd; omega, hm⟩
      · simp only [Memory.wf, Bool.and_eq_true, List.all_eq_true, decide_eq_true_eq]
        refine ⟨fun d hd => ?_, ih hm⟩
        rcases Memory.mem_store hd with rfl | hd
        · show c.1 < a
          omega
        · exact hc d hd

/-- Every write keeps the canonical form. -/
theorem Memory.wf_storeBytes (m : Memory) (a : Nat) (v : List Byte) (h : Memory.wf m = true) :
    Memory.wf (Memory.storeBytes m a v) = true := by
  induction v generalizing m a with
  | nil => exact h
  | cons b v ih => exact ih _ _ (Memory.wf_store m a b h)

/-- A write adds no address outside the old ones and its own range. -/
theorem Memory.lt_of_mem_storeBytes {m : Memory} {a n : Nat} {v : List Byte} (hm : ∀ c ∈ m, c.1 < n)
    (hv : a + v.length ≤ n) : ∀ c ∈ Memory.storeBytes m a v, c.1 < n := by
  induction v generalizing m a with
  | nil => exact hm
  | cons b v ih =>
    refine ih (fun c hc => ?_) (by simp at hv; omega)
    rcases Memory.mem_store hc with rfl | hc
    · simp at hv
      show a < n
      omega
    · exact hm c hc

/-- An address below every listed one has no value. -/
theorem Memory.load_eq_none_of_lt {m : Memory} {a : Nat} (h : ∀ c ∈ m, a < c.1) : Memory.load m a = none := by
  induction m with
  | nil => rfl
  | cons c m ih =>
    have := h c (by simp)
    rw [Memory.load_cons, if_neg (by omega)]
    exact ih fun d hd => h d (List.mem_cons_of_mem _ hd)

/-- `MemRead` reads byte by byte. -/
theorem State.memRead_length (s : State) (a n : Nat) : (s.memRead a n).length = n := by
  induction n generalizing a with
  | zero => rfl
  | succ n ih => simp [State.memRead, ih]

theorem State.memRead_getElem? (s : State) (a n k : Nat) (h : k < n) :
    (s.memRead a n)[k]? = some (s.frameByte (a + k)) := by
  induction n generalizing a k with
  | zero => omega
  | succ n ih =>
    cases k with
    | zero => simp [State.memRead]
    | succ k =>
      simp only [State.memRead, List.getElem?_cons_succ]
      rw [ih (a + 1) k (by omega)]
      congr 2
      omega

/-- A byte with a value is what an operation sees. -/
theorem State.frameByte_of_load {s : State} {k : Nat} {b : Byte} (h : Memory.load s.fb k = some b) :
    s.frameByte k = b := by
  simp [State.frameByte, h]

end Sys2Proof.Machine
end

