-- ==== Sys2Proof/Laws/Operands.lean ====
section
/-! SUPPORT. Lengths and values of the data path's functions. -/

namespace Sys2Proof.Machine

@[simp] theorem be16_length (v : Half) : (be16 v).length = 2 := rfl
@[simp] theorem le16_length (v : Half) : (le16 v).length = 2 := rfl
@[simp] theorem zeros_length (n : Nat) : (zeros n).length = n := by simp [zeros]
@[simp] theorem classEnableVector_length (en : BitVec 8) : (classEnableVector en).length = 2 := rfl
@[simp] theorem quantumFields_length (q : Quanta) : (quantumFields q).length = 16 := rfl
@[simp] theorem frameFields_length (en : BitVec 8) (q : Quanta) : (frameFields en q).length = 34 := rfl

/-- The 34 bytes, one by one (41_builder.md R141). -/
theorem frameFields_eq (en : BitVec 8) (q : Quanta) : frameFields en q =
    [0x01#8, 0x80#8, 0xC2#8, 0x00#8, 0x00#8, 0x01#8, 0x01#8, 0x02#8, 0x03#8, 0x04#8, 0x05#8, 0x06#8,
     0x88#8, 0x08#8, 0x01#8, 0x01#8, 0x00#8, en,
     (q[0] : Half).extractLsb' 8 8, (q[0] : Half).extractLsb' 0 8,
     (q[1] : Half).extractLsb' 8 8, (q[1] : Half).extractLsb' 0 8,
     (q[2] : Half).extractLsb' 8 8, (q[2] : Half).extractLsb' 0 8,
     (q[3] : Half).extractLsb' 8 8, (q[3] : Half).extractLsb' 0 8,
     (q[4] : Half).extractLsb' 8 8, (q[4] : Half).extractLsb' 0 8,
     (q[5] : Half).extractLsb' 8 8, (q[5] : Half).extractLsb' 0 8,
     (q[6] : Half).extractLsb' 8 8, (q[6] : Half).extractLsb' 0 8,
     (q[7] : Half).extractLsb' 8 8, (q[7] : Half).extractLsb' 0 8] := rfl

@[simp] theorem trailer_length (o : Config.CsumOrder) (c : Half) : (trailer o c).length = 2 := by
  cases o <;> rfl

@[simp] theorem padded_length (p : Config.Params) (f : List Byte) : (padded p f).length = f.length + p.padLen := by
  simp [padded]

@[simp] theorem paddedFields_length (p : Config.Params) (en : BitVec 8) (q : Quanta) :
    (paddedFields p en q).length = p.padTarget := by
  simp [paddedFields, Config.Params.padTarget, Config.fieldsLen]

/-- `PAD_LEN` is even, so the checksum's input is (43_padder.md R183). -/
theorem padTarget_even (p : Config.Params) : p.padTarget = 2 * p.nWords := by
  simp only [Config.Params.nWords, Config.Params.padTarget, Config.Params.padLen, Config.fieldsLen]
  omega

/-- `WIRE_LEN` fits in the write pointer (43_padder.md R183). -/
theorem wireLen_lt (p : Config.Params) : p.wireLen < 2 ^ 7 := by
  have := p.padWords.isLt
  simp only [Config.Params.wireLen, Config.Params.padTarget, Config.Params.padLen, Config.fieldsLen, Config.csumLen]
  omega

theorem wireLen_eq (p : Config.Params) : p.wireLen = p.padTarget + 2 := rfl

theorem padTarget_eq (p : Config.Params) : p.padTarget = 34 + p.padLen := rfl

/-- The word of two bytes is their exact value: "no carry possible" (42_checksum.md R170). -/
theorem wordOf_toNat (lo hi : Byte) : (wordOf lo hi).toNat = lo.toNat + 256 * hi.toNat := by
  have h1 := lo.isLt
  have h2 := hi.isLt
  simp only [wordOf, BitVec.toNat_add, BitVec.toNat_setWidth, BitVec.toNat_shiftLeft, Nat.shiftLeft_eq]
  omega

/-- The accumulator holds the exact sum: no carry is dropped (42_checksum.md R161, R165). -/
theorem sumWords32_toNat (f : Nat → Byte) (n : Nat) (hn : n ≤ 65536) :
    (sumWords32 f n).toNat = ((List.range n).map fun k => (wordOf (f (2 * k)) (f (2 * k + 1))).toNat).sum ∧
      (sumWords32 f n).toNat ≤ n * 65535 := by
  induction n with
  | zero => simp [sumWords32]
  | succ n ih =>
    obtain ⟨h1, h2⟩ := ih (by omega)
    have hw := (wordOf (f (2 * n)) (f (2 * n + 1))).isLt
    have hadd : (sumWords32 f (n + 1)).toNat
        = (sumWords32 f n).toNat + (wordOf (f (2 * n)) (f (2 * n + 1))).toNat := by
      simp only [sumWords32, BitVec.toNat_add, BitVec.toNat_setWidth]
      omega
    constructor
    · rw [hadd, h1, List.range_succ, List.map_append, List.sum_append]
      simp
    · omega

/-- One fold, exactly (42_checksum.md R162, R170). -/
theorem foldOnce_toNat (acc : BitVec 32) : (foldOnce acc).toNat = acc.toNat / 65536 + acc.toNat % 65536 := by
  have h := acc.isLt
  have hm : acc.toNat &&& 0xFFFF = acc.toNat % 65536 := Nat.and_two_pow_sub_one_eq_mod acc.toNat 16
  simp only [foldOnce, BitVec.toNat_add, BitVec.toNat_ushiftRight, BitVec.toNat_and, BitVec.toNat_ofNat,
    Nat.shiftRight_eq_div_pow]
  have h2 : (65535 % 2 ^ 32) = 0xFFFF := by decide
  rw [h2, hm]
  omega

/-- The complement of a folded value (42_checksum.md R163). -/
theorem complement16_toNat (acc : BitVec 32) : (complement16 acc).toNat = 0xFFFF - acc.toNat % 65536 := by
  have h := acc.isLt
  simp only [complement16, BitVec.extractLsb'_toNat, BitVec.toNat_not, Nat.shiftRight_zero]
  omega

theorem mustFold_iff (acc : BitVec 32) : mustFold acc = true ↔ 0xFFFF < acc.toNat := by
  simp [mustFold]

/-- A round of the fold loop makes a value above `0xFFFF` smaller. -/
theorem foldRound_lt {acc : Nat} (h : 0xFFFF < acc) : acc / 65536 + acc % 65536 < acc := by omega

/-- Fuel beyond the value changes nothing. -/
theorem foldLoop_fuel {f acc : Nat} (h : acc ≤ f) : foldLoop f acc = foldAll acc := by
  have key : ∀ n acc f g : Nat, acc ≤ n → acc ≤ f → acc ≤ g → foldLoop f acc = foldLoop g acc := by
    intro n
    induction n with
    | zero =>
      intro acc f g hn _ _
      have : acc = 0 := by omega
      subst this
      cases f <;> cases g <;> rfl
    | succ n ih =>
      intro acc f g hn hf hg
      by_cases h0 : acc = 0
      · subst h0
        cases f <;> cases g <;> rfl
      · obtain ⟨f, rfl⟩ : ∃ f', f = f' + 1 := ⟨f - 1, by omega⟩
        obtain ⟨g, rfl⟩ : ∃ g', g = g' + 1 := ⟨g - 1, by omega⟩
        simp only [foldLoop]
        split
        · rename_i hlt
          have := foldRound_lt hlt
          exact ih _ _ _ (by omega) (by omega) (by omega)
        · rfl
  exact key acc acc f acc (Nat.le_refl _) h (Nat.le_refl _)

/-- The loop of 42_checksum.md R160, unrolled once: the recursion equation of `fold` (R164). -/
theorem foldAll_eq (acc : Nat) :
    foldAll acc = if 0xFFFF < acc then foldAll (acc / 65536 + acc % 65536) else acc := by
  cases acc with
  | zero => rfl
  | succ n =>
    show foldLoop (n + 1) (n + 1) = _
    rw [foldLoop]
    split
    · rename_i h
      have := foldRound_lt h
      exact foldLoop_fuel (by omega)
    · rfl

theorem foldAll_of_le {acc : Nat} (h : acc ≤ 0xFFFF) : foldAll acc = acc := by
  rw [foldAll_eq, if_neg (by omega)]

theorem foldAll_of_lt {acc : Nat} (h : 0xFFFF < acc) : foldAll acc = foldAll (acc / 65536 + acc % 65536) := by
  rw [foldAll_eq, if_pos h]

/-- The folded value fits in 16 bits (42_checksum.md R162). -/
theorem foldAll_le (acc : Nat) : foldAll acc ≤ 0xFFFF := by
  induction acc using Nat.strong_induction_on with
  | _ acc ih =>
    rw [foldAll_eq]
    split
    · rename_i h
      exact ih _ (foldRound_lt h)
    · omega

/-- Each of the two ways to write the word sum of an even byte sequence gives the other. -/
theorem wordSum_eq_some (b : List Byte) (n : Nat) (h : b.length = 2 * n) :
    wordSum b = some (((List.range n).map fun k =>
      (wordOf (b.getD (2 * k) 0#8) (b.getD (2 * k + 1) 0#8)).toNat).sum) := by
  induction n generalizing b with
  | zero =>
    have : b = [] := List.length_eq_zero_iff.mp (by omega)
    subst this
    rfl
  | succ n ih =>
    match b, h with
    | lo :: hi :: rest, h =>
      have hr : rest.length = 2 * n := by simp at h; omega
      rw [wordSum, ih rest hr, Option.map_some, List.range_succ_eq_map, List.map_cons, List.sum_cons, List.map_map]
      congr 1

/-- The checksum of a sequence with a word sum (42_checksum.md R160). -/
theorem checksumOf_of_wordSum {b : List Byte} {n : Nat} (h : wordSum b = some n) :
    checksumOf b = some (~~~ (BitVec.ofNat 16 (foldAll n))) := by
  rw [checksumOf, h, Option.map_some]

/-- The frame of a configuration whose checksum is `c` (44_wireframe.md R191). -/
theorem wireFrame_of_checksum {p : Config.Params} {en : BitVec 8} {q : Quanta} {c : Half}
    (h : checksumOf (paddedFields p en q) = some c) :
    wireFrame p en q = some (paddedFields p en q ++ trailer p.csumOrder c) := by
  rw [wireFrame, h, Option.map_some]

end Sys2Proof.Machine
end

