-- ==== Sys2Proof/Laws/Exec.lean ====
section
/-! SUPPORT. One lemma per operation: the state it goes to, over the named updates. -/

namespace Sys2Proof.Machine

theorem execReset_eq (s : State) : execReset s = .next s.enterReset := rfl

theorem execStart_accepted {en : BitVec 8} {q : Quanta} {s : State} (h : s.acceptsStart = true) :
    execStart en q s = .next ((s.restart en q).setPh .build) := by
  simp [execStart, h]

theorem execStart_dropped {en : BitVec 8} {q : Quanta} {s : State} (h : s.acceptsStart = false) :
    execStart en q s = phaseOperation s := by
  simp [execStart, h]

/-- Everything an accepted `START` does. -/
theorem execStart_spec {en : BitVec 8} {q : Quanta} {s t : State} (ha : s.acceptsStart = true)
    (h : execStart en q s = .next t) :
    t.ph = .build ∧ t.en = en ∧ t.q = q ∧ t.wp = 0#7 ∧ t.acc = 0#32 ∧ t.csum = 0x0000#16 ∧ t.fb = [] ∧
      t.params = s.params ∧ t.inputs = s.inputs ∧ t.lastRead = s.lastRead ∧ t.draws = s.draws ∧
      t.fbEpoch = s.fbEpoch + 1 := by
  rw [execStart_accepted ha] at h
  cases h
  exact ⟨rfl, rfl, rfl, rfl, rfl, rfl, rfl, rfl, rfl, rfl, rfl, rfl⟩

theorem execRead_eq (a : BitVec 6) (s : State) :
    execRead a s = .next (s.recordRead { addr := a, valid := s.rdValidO a, data := s.rdDataO a }) := rfl

theorem execBuild_eq (s : State) :
    execBuild s = .next (((s.memWrite 0 (frameFields s.en s.q)).setWp 34).setPh .pad) := rfl

theorem execPad_eq (s : State) :
    execPad s = .next (((s.memWrite 34 (zeros s.params.padLen)).setWp s.params.padTarget).setPh .sum) := rfl

theorem execSum_eq (s : State) :
    execSum s = .next ((s.setAcc (sumWords32 s.frameByte s.params.nWords)).setPh .fold) := rfl

theorem execFold_folds {s : State} (h : 0xFFFF < s.acc.toNat) :
    execFold s = .next ((s.setAcc (foldOnce s.acc)).setPh .fold) := by
  simp [execFold, mustFold, h]

theorem execFold_leaves {s : State} (h : s.acc.toNat ≤ 0xFFFF) : execFold s = .next (s.setPh .cpl) := by
  have : ¬ 0xFFFF < s.acc.toNat := by omega
  simp [execFold, mustFold, this]

theorem execCpl_eq (s : State) : execCpl s = .next ((s.setCsum (complement16 s.acc)).setPh .append) := rfl

theorem execAppend_eq (s : State) :
    execAppend s = .next
      (((s.memWrite s.params.padTarget (trailer s.params.csumOrder s.csum)).setWp s.params.wireLen).setPh .done) := rfl

/-- Everything `BUILD` does, with the next state as a variable. -/
theorem execBuild_spec {s t : State} (h : execBuild s = .next t) :
    t.ph = .pad ∧ t.wp = BitVec.ofNat 7 34 ∧ t.fb = Memory.storeBytes s.fb 0 (frameFields s.en s.q) ∧
      t.en = s.en ∧ t.q = s.q ∧ t.acc = s.acc ∧ t.csum = s.csum ∧ s.sameModelFields t := by
  rw [execBuild_eq] at h
  cases h
  simp [State.sameModelFields]

/-- Everything `PAD` does. -/
theorem execPad_spec {s t : State} (h : execPad s = .next t) :
    t.ph = .sum ∧ t.wp = BitVec.ofNat 7 s.params.padTarget ∧
      t.fb = Memory.storeBytes s.fb 34 (zeros s.params.padLen) ∧
      t.en = s.en ∧ t.q = s.q ∧ t.acc = s.acc ∧ t.csum = s.csum ∧ s.sameModelFields t := by
  cases h
  exact ⟨rfl, rfl, rfl, rfl, rfl, rfl, rfl, rfl, rfl, rfl, rfl, rfl⟩

/-- Everything `SUM` does. -/
theorem execSum_spec {s t : State} (h : execSum s = .next t) :
    t.ph = .fold ∧ t.acc = sumWords32 s.frameByte s.params.nWords ∧ t.fb = s.fb ∧
      t.en = s.en ∧ t.q = s.q ∧ t.wp = s.wp ∧ t.csum = s.csum ∧ s.sameModelFields t := by
  cases h
  exact ⟨rfl, rfl, rfl, rfl, rfl, rfl, rfl, rfl, rfl, rfl, rfl, rfl⟩

/-- Everything `FOLD` does: it folds and stays, or it leaves. -/
theorem execFold_spec {s t : State} (h : execFold s = .next t) :
    ((0xFFFF < s.acc.toNat ∧ t.ph = .fold ∧ t.acc = foldOnce s.acc) ∨
      (s.acc.toNat ≤ 0xFFFF ∧ t.ph = .cpl ∧ t.acc = s.acc)) ∧
      t.fb = s.fb ∧ t.en = s.en ∧ t.q = s.q ∧ t.wp = s.wp ∧ t.csum = s.csum ∧ s.sameModelFields t := by
  by_cases ha : 0xFFFF < s.acc.toNat
  · rw [execFold_folds ha] at h
    cases h
    exact ⟨.inl ⟨ha, rfl, rfl⟩, rfl, rfl, rfl, rfl, rfl, rfl, rfl, rfl, rfl, rfl⟩
  · rw [execFold_leaves (by omega)] at h
    cases h
    exact ⟨.inr ⟨by omega, rfl, rfl⟩, rfl, rfl, rfl, rfl, rfl, rfl, rfl, rfl, rfl, rfl⟩

/-- Everything `CPL` does. -/
theorem execCpl_spec {s t : State} (h : execCpl s = .next t) :
    t.ph = .append ∧ t.csum = complement16 s.acc ∧ t.fb = s.fb ∧
      t.en = s.en ∧ t.q = s.q ∧ t.wp = s.wp ∧ t.acc = s.acc ∧ s.sameModelFields t := by
  cases h
  exact ⟨rfl, rfl, rfl, rfl, rfl, rfl, rfl, rfl, rfl, rfl, rfl, rfl⟩

/-- Everything `APPEND` does. -/
theorem execAppend_spec {s t : State} (h : execAppend s = .next t) :
    t.ph = .done ∧ t.wp = BitVec.ofNat 7 s.params.wireLen ∧
      t.fb = Memory.storeBytes s.fb s.params.padTarget (trailer s.params.csumOrder s.csum) ∧
      t.en = s.en ∧ t.q = s.q ∧ t.acc = s.acc ∧ t.csum = s.csum ∧ s.sameModelFields t := by
  cases h
  exact ⟨rfl, rfl, rfl, rfl, rfl, rfl, rfl, rfl, rfl, rfl, rfl, rfl⟩

/-- Everything entering reset does. -/
theorem enterReset_spec (s : State) :
    s.enterReset.ph = .idle ∧ s.enterReset.en = 0x00#8 ∧ s.enterReset.q = Quanta.zero ∧ s.enterReset.wp = 0#7 ∧
      s.enterReset.acc = 0#32 ∧ s.enterReset.csum = 0x0000#16 ∧ s.enterReset.fb = [] ∧
      s.enterReset.params = s.params ∧ s.enterReset.inputs = s.inputs ∧ s.enterReset.lastRead = s.lastRead ∧
      s.enterReset.draws = s.draws ∧ s.enterReset.fbEpoch = s.fbEpoch + 1 :=
  ⟨rfl, rfl, rfl, rfl, rfl, rfl, rfl, rfl, rfl, rfl, rfl, rfl⟩

/-- The operation of the phase is `exec` of the phase's operation. -/
theorem exec_phaseInstr (s : State) : exec (phaseInstr s.ph) s = phaseOperation s := by
  cases h : s.ph <;> simp only [phaseOperation, h] <;> rfl

theorem acceptsStart_iff (s : State) : s.acceptsStart = true ↔ s.ph = .idle ∨ s.ph = .done := by
  cases h : s.ph <;> simp [State.acceptsStart, State.busyO, h]

theorem busyO_iff (s : State) : s.busyO = true ↔ s.ph ≠ .idle ∧ s.ph ≠ .done := by
  cases h : s.ph <;> simp [State.busyO, h]

theorem doneO_iff (s : State) : s.doneO = true ↔ s.ph = .done := by
  cases h : s.ph <;> simp [State.doneO, h]

/-- States with the same block agree in each of its seven items. -/
theorem State.sameRegisters_fields {s t : State} (h : s.sameRegisters t) :
    s.ph = t.ph ∧ s.en = t.en ∧ s.q = t.q ∧ s.wp = t.wp ∧ s.acc = t.acc ∧ s.csum = t.csum ∧ s.fb = t.fb := by
  have h : s.toBlock = t.toBlock := h
  simp [h]

theorem State.sameRegisters_trans {s t u : State} (h : s.sameRegisters t) (h' : t.sameRegisters u) :
    s.sameRegisters u := Eq.trans h h'

end Sys2Proof.Machine
end

