-- ==== Sys2Proof/Laws/PerInstr.lean ====
section
/-! SUPPORT. What holds of every operation as syntax, one lemma per operation: the encoder's code falls under the
operation's own row of opcode_table.json, and the code is canonical. -/

namespace Sys2Proof.Laws.RowOfCode

/-- The operation's code has its row's format and fixed bits, and is canonical. -/
def Statement (i : Instr) : Prop := i.row.matches (encode i) = true ∧ (encode i).canonical = true

theorem reset (s : Bool) : Statement (.reset s) := by cases s <;> exact ⟨by decide, by decide⟩
theorem start (en : BitVec 8) (q : Quanta) : Statement (.start en q) := by
  constructor
  · simp [Row.matches, Instr.row, encode, Code.word]
  · simp [encode, Code.canonical]
theorem read (a : BitVec 6) : Statement (.read a) := by
  constructor
  · simp [Row.matches, Instr.row, encode, Code.word]
  · rfl
theorem idle : Statement .idle := ⟨by decide, by decide⟩
theorem build : Statement .build := ⟨by decide, by decide⟩
theorem pad : Statement .pad := ⟨by decide, by decide⟩
theorem sum : Statement .sum := ⟨by decide, by decide⟩
theorem fold : Statement .fold := ⟨by decide, by decide⟩
theorem cpl : Statement .cpl := ⟨by decide, by decide⟩
theorem append : Statement .append := ⟨by decide, by decide⟩
theorem done : Statement .done := ⟨by decide, by decide⟩

end Sys2Proof.Laws.RowOfCode
end

