-- ==== Sys2Proof/Laws/Step.lean ====
section
/-! SUPPORT. What a step can do, said once: one lemma per kind of coming stimulus. -/

namespace Sys2Proof.Machine

/-- The host vector requests `RESET`, or else `START`, or else nothing (30_encoding.md R92). -/
theorem select_reset {p : StepInput} {ph : Phase} (h : p.rst = true) : select p ph = .reset p.start := by
  cases hs : p.start <;> simp [select, StepInput.hv, h, hs, decodeRequest]

theorem select_start {p : StepInput} {ph : Phase} (h : p.rst = false) (hs : p.start = true) :
    select p ph = .start p.enable p.quantum := by
  simp [select, StepInput.hv, h, hs, decodeRequest]

theorem select_phase {p : StepInput} {ph : Phase} (h : p.rst = false) (hs : p.start = false) :
    select p ph = phaseInstr ph := by
  simp [select, StepInput.hv, h, hs, decodeRequest]

theorem step_empty {s : State} (h : s.inputs = []) : step s = phaseOperation s := by
  simp only [step, fetch, h]
  exact exec_phaseInstr s

theorem step_sample {s : State} {a : BitVec 6} {rest : List Stimulus} (h : s.inputs = .sample a :: rest) :
    step s = execRead a (s.setInputs rest) := by
  simp only [step, fetch, h]
  rfl

theorem step_stall {s : State} {p : StepInput} {rest : List Stimulus} (h : s.inputs = .step p :: rest)
    (hs : s.stallsOn p = true) : step s = .next (s.setInputs rest) := by
  simp [step, fetch, h, hs]

theorem step_select {s : State} {p : StepInput} {rest : List Stimulus} (h : s.inputs = .step p :: rest)
    (hs : s.stallsOn p = false) : step s = exec (select p s.ph) (s.setInputs rest) := by
  simp [step, fetch, h, hs]

theorem step_reset {s : State} {p : StepInput} {rest : List Stimulus} (h : s.inputs = .step p :: rest)
    (hr : p.rst = true) : step s = .next (s.setInputs rest).enterReset := by
  rw [step_select h (by simp [State.stallsOn, hr]), select_reset hr]
  rfl

theorem step_start {s : State} {p : StepInput} {rest : List Stimulus} (h : s.inputs = .step p :: rest)
    (hr : p.rst = false) (hs : p.start = true) (ha : s.acceptsStart = true) :
    step s = .next (((s.setInputs rest).restart p.enable p.quantum).setPh .build) := by
  have hb : s.busyO = false := by simpa [State.acceptsStart] using ha
  rw [step_select h (by simp [State.stallsOn, hb]), select_start hr hs]
  exact execStart_accepted ha

/-- Without `RESET` and without an accepted `START`, a step that does not wait performs the operation of the phase. -/
theorem step_phase {s : State} {p : StepInput} {rest : List Stimulus} (h : s.inputs = .step p :: rest)
    (hr : p.rst = false) (hs : p.start = true → s.acceptsStart = false) (hw : s.stallsOn p = false) :
    step s = phaseOperation (s.setInputs rest) := by
  rw [step_select h hw]
  cases hp : p.start with
  | true =>
    rw [select_start hr hp]
    exact execStart_dropped (hs hp)
  | false =>
    rw [select_phase hr hp]
    exact exec_phaseInstr (s.setInputs rest)

/-- The six things a step can be. -/
theorem step_cases (s : State) :
    (s.inputs = [] ∧ step s = phaseOperation s) ∨
    (∃ a rest, s.inputs = .sample a :: rest ∧ step s = execRead a (s.setInputs rest)) ∨
    (∃ p rest, s.inputs = .step p :: rest ∧ p.rst = true ∧ step s = .next (s.setInputs rest).enterReset) ∨
    (∃ p rest, s.inputs = .step p :: rest ∧ p.rst = false ∧ p.start = true ∧ s.acceptsStart = true ∧
      step s = .next (((s.setInputs rest).restart p.enable p.quantum).setPh .build)) ∨
    (∃ p rest, s.inputs = .step p :: rest ∧ p.rst = false ∧ s.stallsOn p = true ∧
      step s = .next (s.setInputs rest)) ∨
    (∃ p rest, s.inputs = .step p :: rest ∧ p.rst = false ∧ (p.start = true → s.acceptsStart = false) ∧
      s.stallsOn p = false ∧ step s = phaseOperation (s.setInputs rest)) := by
  rcases hi : s.inputs with _ | ⟨x, rest⟩
  · exact .inl ⟨rfl, step_empty hi⟩
  · rcases x with p | a
    · by_cases hr : p.rst = true
      · exact .inr (.inr (.inl ⟨p, rest, rfl, hr, step_reset hi hr⟩))
      · have hr : p.rst = false := by simpa using hr
        by_cases hst : s.stallsOn p = true
        · exact .inr (.inr (.inr (.inr (.inl ⟨p, rest, rfl, hr, hst, step_stall hi hst⟩))))
        · have hst : s.stallsOn p = false := by simpa using hst
          by_cases ha : p.start = true ∧ s.acceptsStart = true
          · exact .inr (.inr (.inr (.inl ⟨p, rest, rfl, hr, ha.1, ha.2, step_start hi hr ha.1 ha.2⟩)))
          · have hd : p.start = true → s.acceptsStart = false := fun h => by
              simpa using fun h' => ha ⟨h, h'⟩
            exact .inr (.inr (.inr (.inr (.inr ⟨p, rest, rfl, hr, hd, hst, step_phase hi hr hd hst⟩))))
    · exact .inr (.inl ⟨a, rest, rfl, step_sample hi⟩)

/-- What the operation of a phase goes to, phase by phase. -/
theorem phaseOperation_cases (s : State) :
    ((s.ph = .idle ∨ s.ph = .done) ∧ phaseOperation s = .next s) ∨
    (s.ph = .build ∧ phaseOperation s = .next (((s.memWrite 0 (frameFields s.en s.q)).setWp 34).setPh .pad)) ∨
    (s.ph = .pad ∧
      phaseOperation s = .next (((s.memWrite 34 (zeros s.params.padLen)).setWp s.params.padTarget).setPh .sum)) ∨
    (s.ph = .sum ∧
      phaseOperation s = .next ((s.setAcc (sumWords32 s.frameByte s.params.nWords)).setPh .fold)) ∨
    (s.ph = .fold ∧ 0xFFFF < s.acc.toNat ∧
      phaseOperation s = .next ((s.setAcc (foldOnce s.acc)).setPh .fold)) ∨
    (s.ph = .fold ∧ s.acc.toNat ≤ 0xFFFF ∧ phaseOperation s = .next (s.setPh .cpl)) ∨
    (s.ph = .cpl ∧ phaseOperation s = .next ((s.setCsum (complement16 s.acc)).setPh .append)) ∨
    (s.ph = .append ∧ phaseOperation s = .next
      (((s.memWrite s.params.padTarget (trailer s.params.csumOrder s.csum)).setWp s.params.wireLen).setPh .done)) := by
  cases h : s.ph
  case fold =>
    have hf : phaseOperation s = execFold s := by simp [phaseOperation, h]
    by_cases ha : 0xFFFF < s.acc.toNat
    · exact .inr (.inr (.inr (.inr (.inl ⟨rfl, ha, hf.trans (execFold_folds ha)⟩))))
    · exact .inr (.inr (.inr (.inr (.inr (.inl ⟨rfl, by omega, hf.trans (execFold_leaves (by omega))⟩)))))
  all_goals simp [phaseOperation, h, execIdle, execDone, execBuild_eq, execPad_eq, execSum_eq, execCpl_eq, execAppend_eq]

@[simp] theorem runSteps_zero (s : State) : runSteps 0 s = .next s := rfl

/-- A run of `k + 1` steps is a step and a run of `k` steps. -/
theorem runSteps_succ {k : Nat} {s t : State} (h : step s = .next t) : runSteps (k + 1) s = runSteps k t := by
  have h' : Sys2Proof.core.step s = .next t := h
  simp only [runSteps, Host.Core.run, h']
  rfl

end Sys2Proof.Machine
end

