-- ==== Sys2Proof/Tests/Slice0.lean ====
section
/-! SUPPORT. Tests against the numbers of 95_test_vectors.md and the encodings of 30_encoding.md, and a witness for the
hypotheses of each statement. No expected number here comes from the model. -/

namespace Sys2Proof.Tests
open Sys2Proof Sys2Proof.Machine

/-! ## Helpers -/

/-- The next state, where there is one. -/
def after (o : Host.Outcome State Fault Refusal) : Option State :=
  match o with
  | .next s => some s
  | .fault _ => none
  | .refused _ => none

theorem next_of_after {o : Host.Outcome State Fault Refusal} (h : (after o).isSome = true) : ∃ t, o = .next t := by
  cases o with
  | next t => exact ⟨t, rfl⟩
  | fault r => cases h
  | refused r => cases h

/-- The quanta of vector V2, the source's scenario S6. -/
def quantaV2 : Quanta := #v[100#16, 0#16, 0#16, 0#16, 0#16, 0#16, 0#16, 65535#16]

/-- The frame V2, as 95_test_vectors.md 2.3 prints it. -/
def frameV2 : List Byte :=
  [0x01, 0x80, 0xC2, 0x00, 0x00, 0x01, 0x01, 0x02, 0x03, 0x04, 0x05, 0x06, 0x88, 0x08, 0x01, 0x01, 0x00, 0x89,
   0x00, 0x64, 0x00, 0x00, 0x00, 0x00, 0x00, 0x00, 0x00, 0x00, 0x00, 0x00, 0x00, 0x00, 0xFF, 0xFF] ++
  [0x00, 0x00, 0x00, 0x00, 0x00, 0x00, 0x00, 0x00, 0x00, 0x00, 0x00, 0x00, 0x00, 0x00, 0x00, 0x00, 0x00, 0x00,
   0x00, 0x00, 0x00, 0x00, 0x00, 0x00, 0x00, 0x00, 0xA9, 0x7B]

/-- Ports that request `START` with V2's configuration. -/
def startV2 : StepInput := StepInput.starting 0x89#8 quantaV2

/-- Ports on which nothing is requested and the implementation waits. -/
def stalled : StepInput := { StepInput.quiet with stall := true }

/-- The reset state with these stimuli to come. -/
def fresh (l : List Stimulus) : State := { State.reset with inputs := l }

/-- A state in the given phase of V2's build: its configuration, the first bytes of its frame, and these registers. -/
def inBuild (ph : Phase) (wp : Nat) (acc : BitVec 32) (csum : Half) (l : List Stimulus) : State :=
  { State.reset with
    ph := ph, en := 0x89#8, q := quantaV2, wp := BitVec.ofNat 7 wp, acc := acc, csum := csum,
    fb := (List.range wp).zip frameV2, inputs := l }

/-- `DONE` of program P1 of 95_test_vectors.md. -/
def doneV2 (l : List Stimulus) : State := inBuild .done 62 0x8456#32 0x7BA9#16 l

/-- `APPEND` of program P1, before its step. -/
def appendV2 (l : List Stimulus) : State := inBuild .append 60 0x8456#32 0x7BA9#16 l

/-! ## The checks of WellFormed refuse ill-formed lines -/

theorem test_wf_good_start : (Line.start 0x89 [100, 0, 0, 0, 0, 0, 0, 65535]).wf = true := by decide
theorem test_wf_wide_enable : (Line.start 0x100 [0, 0, 0, 0, 0, 0, 0, 0]).wf = false := by decide
theorem test_wf_seven_quanta : (Line.start 0x00 [0, 0, 0, 0, 0, 0, 0]).wf = false := by decide
theorem test_wf_quantum_65536 : (Line.start 0x00 [65536, 0, 0, 0, 0, 0, 0, 0]).wf = false := by decide
theorem test_wf_wide_address : (Line.read 64).wf = false := by decide
theorem test_wf_address_63 : (Line.read 63).wf = true := by decide

/-! ## Decoding: words written out from 30_encoding.md R91 to R93 -/

theorem test_decode_reset : decodeNat .host 0b10 = .ok (.reset false) := by decide
theorem test_decode_reset_with_start : decodeNat .host 0b11 = .ok (.reset true) := by decide
/-- P1 line 2: the operand as 95_test_vectors.md prints it, `hv` = 01 in the two lowest bits. -/
theorem test_decode_start :
    decodeNat .host (0x890064000000000000000000000000FFFF * 4 + 0b01) = .ok (.start 0x89#8 quantaV2) := by decide
theorem test_decode_no_request : decodeNat .host 0b00 = .error .noRequest := by decide
theorem test_decode_read_17 : decodeNat .rdPort 0b010001 = .ok (.read 17#6) := by decide
theorem test_decode_read_too_wide : decodeNat .rdPort 64 = .error .tooWide := by decide
theorem test_decode_idle : decodeNat .phase 0b000 = .ok .idle := by decide
theorem test_decode_build : decodeNat .phase 0b001 = .ok .build := by decide
theorem test_decode_pad : decodeNat .phase 0b010 = .ok .pad := by decide
theorem test_decode_sum : decodeNat .phase 0b011 = .ok .sum := by decide
theorem test_decode_fold : decodeNat .phase 0b100 = .ok .fold := by decide
theorem test_decode_cpl : decodeNat .phase 0b101 = .ok .cpl := by decide
theorem test_decode_append : decodeNat .phase 0b110 = .ok .append := by decide
theorem test_decode_done : decodeNat .phase 0b111 = .ok .done := by decide
theorem test_decode_phase_too_wide : decodeNat .phase 8 = .error .tooWide := by decide

/-- The table's own widths name the format: 2 bits a host vector, 6 a read address, 3 a phase code. -/
theorem test_table_word_by_width :
    decodeTableWord 2 0x2 = some (.reset false) ∧ decodeTableWord 2 0x1 = some (.start 0x00#8 Quanta.zero) ∧
    decodeTableWord 6 0x11 = some (.read 17#6) ∧ decodeTableWord 3 0x2 = some .pad ∧
    decodeTableWord 8 0x2 = some .pad ∧ decodeTableWord 8 0x11 = some (.read 17#6) ∧ decodeTableWord 8 0x40 = none := by
  decide

/-- Program P1, lines 1 to 3, as stimuli (95_test_vectors.md part 3). -/
theorem test_lines_of_p1 :
    lineStimuli .reset ++ lineStimuli (.start 0x89 [100, 0, 0, 0, 0, 0, 0, 65535]) ++ lineStimuli .step
      = [.step (StepInput.resetting false), .step startV2, .step StepInput.quiet] := by decide

/-- `READALL` is 62 reads in order; `SEND 3` is 186 (30_encoding.md R96). -/
theorem test_lines_of_readall :
    (lineStimuli .readAll).length = 62 ∧ (lineStimuli .readAll)[61]? = some (.sample 61#6) ∧
    (lineStimuli (.send 3)).length = 186 ∧ lineStimuli (.read 5) = [.sample 5#6] := by decide +kernel

/-! ## The operations, one step each -/

/-- H1: `RESET` with `start_i` = 1 in `DONE`. -/
theorem test_reset :
    after (exec (.reset true) (doneV2 [])) = some { State.reset with fbEpoch := 1 } := by decide

/-- H10: `RESET` in `APPEND`, through a step. -/
theorem test_reset_in_append :
    (after (step (appendV2 [.step (StepInput.resetting false)]))).map (fun t => (t.ph, t.lenO, t.rdValidO 0#6)) =
      some (.idle, 0#7, false) := by decide

/-- H2: `START` in `IDLE`. -/
theorem test_start_in_idle :
    (after (exec (.start 0x89#8 quantaV2) State.reset)).map (fun t => (t.ph, t.en, t.q[0], t.q[7], t.busyO)) =
      some (.build, 0x89#8, 0x0064#16, 0xFFFF#16, true) := by decide

/-- R112: `START` in `DONE` clears `WP`, `ACC` and `CSUM`; R27: no byte of the old frame keeps its value. -/
theorem test_start_in_done :
    (after (exec (.start 0x00#8 Quanta.zero) (doneV2 []))).map (fun t => (t.wp, t.acc, t.csum, t.fb)) =
      some (0#7, 0#32, 0x0000#16, []) := by decide

/-- H3: `START` in `PAD` is dropped and `PAD` is performed. -/
theorem test_start_while_busy :
    (after (step (inBuild .pad 34 0#32 0x0000#16
        [.step (StepInput.starting 0xFF#8 (Vector.replicate 8 0xFFFF#16))]))).map
      (fun t => (t.ph, t.wp, t.en, t.q)) = some (.sum, 60#7, 0x89#8, quantaV2) := by decide

/-- H5: valid reads of V2 in `DONE`, and the two addresses that name nothing. -/
theorem test_read_in_done :
    [17#6, 19#6, 60#6, 61#6].map (fun a => (after (exec (.read a) (doneV2 []))).bind (fun t => t.lastRead)) =
      [some ⟨17#6, true, 0x89#8⟩, some ⟨19#6, true, 0x64#8⟩, some ⟨60#6, true, 0xA9#8⟩, some ⟨61#6, true, 0x7B#8⟩] ∧
    (doneV2 []).rdValidO 62#6 = false ∧ (doneV2 []).rdValidO 63#6 = false := by decide

/-- H4: `READ 0` in `SUM` is not valid, and it uses up one free value. -/
theorem test_read_while_busy :
    (after (exec (.read 0#6) (inBuild .sum 60 0#32 0x0000#16 []))).map
      (fun t => (t.lastRead.map ReadSample.valid, t.draws, t.ph)) = some (some false, 1, .sum) := by decide

/-- R114, H8: a step in `IDLE` changes nothing. -/
theorem test_idle : after (exec .idle State.reset) = some State.reset := by decide

/-- R115, H6: a step in `DONE` changes nothing. -/
theorem test_done : after (exec .done (doneV2 [])) = some (doneV2 []) := by decide

/-- R140's example: the 34 bytes, `WP`, `PH`. -/
theorem test_build :
    (after (exec .build (inBuild .build 0 0#32 0x0000#16 []))).map (fun t => (t.fb.map Prod.snd, t.wp, t.ph)) =
      some ([0x01, 0x80, 0xC2, 0x00, 0x00, 0x01, 0x01, 0x02, 0x03, 0x04, 0x05, 0x06, 0x88, 0x08, 0x01, 0x01, 0x00, 0x89,
        0x00, 0x64, 0x00, 0x00, 0x00, 0x00, 0x00, 0x00, 0x00, 0x00, 0x00, 0x00, 0x00, 0x00, 0xFF, 0xFF], 34#7, .pad) := by
  decide

/-- S2: 256 is the bytes 01 00, 255 the bytes 00 FF; R142: classes 0 and 7 are 00 81. -/
theorem test_field_bytes :
    be16 256#16 = [0x01#8, 0x00#8] ∧ be16 255#16 = [0x00#8, 0xFF#8] ∧
    classEnableVector 0x81#8 = [0x00#8, 0x81#8] ∧ classEnableByte 0x81#8 [3, 7, 0, 1, 2, 4, 5, 6] = 0x81#8 := by decide

/-- 2.4: after `PAD`, `len_o` = 60 and the bytes 34..59 are zero. -/
theorem test_pad :
    (after (exec .pad (inBuild .pad 34 0#32 0x0000#16 []))).map
      (fun t => (t.memRead 34 26, t.lenO, t.ph, Memory.load t.fb 60)) =
      some (List.replicate 26 0x00#8, 60#7, .sum, none) := by decide

/-- R161's example: `ACC` = 0x28454. -/
theorem test_sum :
    (after (exec .sum (inBuild .sum 60 0#32 0x0000#16 []))).map (fun t => (t.acc, t.ph)) = some (0x28454#32, .fold) := by
  decide

/-- H9: `FOLD` of 0x10000. -/
theorem test_fold :
    (after (exec .fold (inBuild .fold 60 0x10000#32 0x0000#16 []))).map (fun t => (t.acc, t.ph)) =
      some (0x0001#32, .fold) := by decide

/-- R162: 0xFFFF is not folded. -/
theorem test_fold_leaves :
    (after (exec .fold (inBuild .fold 60 0xFFFF#32 0x0000#16 []))).map (fun t => (t.acc, t.ph)) =
      some (0xFFFF#32, .cpl) := by decide

/-- R163's example, and its corner. -/
theorem test_cpl :
    (after (exec .cpl (inBuild .cpl 60 0x8456#32 0x0000#16 []))).map (fun t => (t.csum, t.ph)) =
      some (0x7BA9#16, .append) ∧ complement16 0xFFFF#32 = 0x0000#16 := by decide

/-- R190's example: `FB[60]` = A9, `FB[61]` = 7B, `len_o` = 62, `done_o` = 1. -/
theorem test_append :
    (after (exec .append (appendV2 []))).map (fun t => (t.memRead 60 2, t.lenO, t.doneO, t.busyO)) =
      some ([0xA9#8, 0x7B#8], 62#7, true, false) := by decide

/-- V14 and V15: `PAD_LEN` = 28 puts the trailer at 62; `high_first` exchanges the two bytes. -/
theorem test_append_variants :
    (after (exec .append { appendV2 [] with params := ⟨14, .lowFirst⟩ })).map (fun t => (t.memRead 62 2, t.lenO)) =
      some ([0xA9#8, 0x7B#8], 64#7) ∧
    (after (exec .append { appendV2 [] with params := ⟨13, .highFirst⟩ })).map (fun t => t.memRead 60 2) =
      some [0x7B#8, 0xA9#8] := by decide

/-! ## The functions, on the vectors of 95_test_vectors.md 2.2 and 2.3 -/

/-- V2's frame, whole. -/
theorem test_frame_v2 : wireFrame Config.Params.spec 0x89#8 quantaV2 = some frameV2 := by decide +kernel

/-- The sums of V1, V2, V4 and V9, by the closed form and by the words. -/
theorem test_sums :
    wordSum (paddedFields Config.Params.spec 0x00#8 Quanta.zero) = some 0x9755 ∧
    wordSum (paddedFields Config.Params.spec 0x89#8 quantaV2) = some 0x28454 ∧
    closedSum 0x89#8 quantaV2 = 0x28454 ∧ closedSum 0xFF#8 (Vector.replicate 8 0xFFFF#16) = 0x9964D := by decide +kernel

/-- The bare accumulators of 2.2: two folds from 0x1CFFFF and 0x8FFF8, one from 0x1DFFE2. -/
theorem test_folds :
    foldOnce 0x1CFFFF#32 = 0x1001B#32 ∧ foldOnce 0x1001B#32 = 0x1C#32 ∧ foldOnce 0x8FFF8#32 = 0x10000#32 ∧
    foldOnce 0x1DFFE2#32 = 0xFFFF#32 ∧ complement16 0x1C#32 = 0xFFE3#16 := by decide

/-! ## What the next step runs -/

/-- From reset with nothing placed, a step is `IDLE`; a placed word runs, a `START` even in a busy phase. -/
theorem test_fetch_word :
    (fetch State.reset).1 = some .idle ∧ (fetch (State.reset.withFetchWord 3 0x4)).1 = some .fold ∧
    (fetch (State.reset.withFetchWord 2 0x2)).1 = some (.reset false) ∧
    (fetch ((appendV2 []).withFetchWord 2 0x1)).1 = some (.start 0x00#8 Quanta.zero) ∧
    (fetch (State.reset.withFetchWord 6 0x3F)).1 = some (.read 63#6) := by decide

/-- The rows of opcode_table.json for one format do not overlap: no phase code falls under two rows. -/
theorem test_rows_do_not_overlap :
    ∀ c : BitVec 3, ([Instr.idle, .build, .pad, .sum, .fold, .cpl, .append, .done].filter
      (fun i => i.row.matches (.phase c))).length = 1 := by decide

/-! ## The invariant holds in states of a build -/

theorem sum_of_v2 : wordSum (paddedFields Config.Params.spec 0x89#8 quantaV2) = some 0x28454 := test_sums.2.1

theorem checksum_of_v2 : checksumOf (paddedFields Config.Params.spec 0x89#8 quantaV2) = some 0x7BA9#16 := by
  rw [checksumOf_of_wordSum sum_of_v2, foldAll_of_lt (by decide), foldAll_of_le (by decide)]
  decide

theorem folded_of_v2 (n : Nat) (h : wordSum (paddedFields Config.Params.spec 0x89#8 quantaV2) = some n) :
    foldAll n = 0x8456 := by
  rw [sum_of_v2] at h
  cases h
  rw [foldAll_of_lt (by decide), foldAll_of_le (by decide)]

theorem inv_doneV2 (l : List Stimulus) : Inv (doneV2 l) where
  memoryCanonical := by
    show Memory.wf ((List.range 62).zip frameV2) = true
    decide +kernel
  memoryBelowWp := by
    show ∀ c ∈ ((List.range 62).zip frameV2), c.1 < 62
    decide +kernel
  writePointer := rfl
  frameSoFar := by
    show ∀ k, k < 62 → Memory.load (((List.range 62).zip frameV2)) k =
      (paddedFields Config.Params.spec 0x89#8 quantaV2 ++ trailer .lowFirst 0x7BA9#16)[k]?
    decide +kernel
  accumulator := fun n h => (folded_of_v2 n h).symm
  checksum := checksum_of_v2
  idleConfig := fun h => nomatch h

theorem inv_appendV2 (l : List Stimulus) : Inv (appendV2 l) where
  memoryCanonical := by
    show Memory.wf ((List.range 60).zip frameV2) = true
    decide +kernel
  memoryBelowWp := by
    show ∀ c ∈ ((List.range 60).zip frameV2), c.1 < 60
    decide +kernel
  writePointer := rfl
  frameSoFar := by
    show ∀ k, k < 60 → Memory.load (((List.range 60).zip frameV2)) k =
      (paddedFields Config.Params.spec 0x89#8 quantaV2 ++ trailer .lowFirst 0x7BA9#16)[k]?
    decide +kernel
  accumulator := fun n h => (folded_of_v2 n h).symm
  checksum := checksum_of_v2
  idleConfig := fun h => nomatch h

theorem inv_fresh (l : List Stimulus) : Inv (fresh l) where
  memoryCanonical := rfl
  memoryBelowWp := fun _ h => nomatch h
  writePointer := rfl
  frameSoFar := fun _ h => absurd h (Nat.not_lt_zero _)
  accumulator := fun _ _ => rfl
  checksum := rfl
  idleConfig := fun _ => ⟨rfl, rfl⟩

/-! ## A witness for the hypotheses of each statement -/

theorem witness_StepRunsTheDecodedOperation :
    (let s := fresh [.step startV2]
     s.inputs = .step startV2 :: [] ∧ s.stallsOn startV2 = false ∧
      decode (selectCode startV2 s.ph) = .ok (.start 0x89#8 quantaV2)) ∧
    ((fresh [.sample 61#6]).inputs = .sample 61#6 :: [] ∧ decode (.rdPort 61#6) = .ok (.read 61#6)) ∧
    ((fresh []).inputs = [] ∧ decode (.phase (phaseCode (fresh []).ph)) = .ok .idle) := by decide

theorem witness_FetchWordRunsTheDecodedOperation :
    decodeTableWord 3 0x5 = some .cpl ∧ decodeTableWord 138 (2 ^ 138 - 3) = some (.start 0xFF#8 (Vector.replicate 8 0xFFFF#16))
      ∧ decodeTableWord 6 0x3F = some (.read 63#6) := by decide

theorem witness_DecodeOfEncodeIsTheOperation : (Instr.start 0x89#8 quantaV2).wf = true ∧ (Instr.read 63#6).wf = true := by
  decide

theorem witness_EncodeOfDecodeIsTheCanonicalCode :
    (Code.host 0b11#2 0#136).canonical = true ∧ decode (.host 0b11#2 0#136) = .ok (.reset true) ∧
    (Code.rdPort 63#6).canonical = true ∧ decode (.rdPort 63#6) = .ok (.read 63#6) := by decide

theorem witness_HostVectorDecodesAsStated : (0b10#2).getLsbD 1 = true ∧ (0b11#2).getLsbD 1 = true := by decide

theorem witness_DecodedOperationIsTheOnlyMatchingRow :
    decode (.phase 7#3) = .ok .done ∧ Instr.done.row.matches (.phase 7#3) = true := by decide

theorem witness_ResetPutsEveryRegisterAtItsResetValue :
    (fresh [.step (StepInput.resetting true)]).inputs = .step (StepInput.resetting true) :: [] ∧
    (StepInput.resetting true).rst = true := by decide

theorem witness_StartLatchesTheConfiguration :
    (State.reset.ph = .idle ∧ (doneV2 []).ph = .done) ∧
    ((doneV2 [.step startV2]).inputs = .step startV2 :: [] ∧ startV2.rst = false ∧ startV2.start = true) := by decide

theorem witness_StartWhileBusyIsDropped :
    (appendV2 [.step startV2]).busyO = true ∧ (appendV2 [.step startV2]).inputs = .step startV2 :: [] ∧
    startV2.rst = false ∧ StepInput.quiet.rst = false ∧ StepInput.quiet.stall = startV2.stall := by decide

theorem witness_ReadShowsTheByteAndChangesNothing :
    (doneV2 []).ph = .done ∧ (61#6).toNat < (doneV2 []).params.wireLen ∧ Memory.load (doneV2 []).fb 61 = some 0x7B#8 ∧
    ¬ (62#6).toNat < (doneV2 []).params.wireLen ∧ Inv (doneV2 []) :=
  ⟨rfl, by decide, by decide +kernel, by decide, inv_doneV2 []⟩

theorem witness_WaitingPhasesHold :
    ((fresh [.step StepInput.quiet, .sample 0#6]).ph = .idle ∧ (doneV2 [.step StepInput.quiet, .sample 0#6]).ph = .done) ∧
    (∀ x ∈ [Stimulus.step StepInput.quiet, .sample 0#6], x.noRequest = true) := by decide

theorem witness_SumAddsTheWordsExactly :
    (∀ k, k < Config.Params.spec.padTarget →
      Memory.load (inBuild .sum 60 0#32 0x0000#16 []).fb k = some (frameV2.getD k 0#8)) ∧
    [3, 1, 0, 2].Perm (List.range 4) := by decide +kernel

theorem witness_FoldFoldsOnceOrLeaves :
    0xFFFF < (inBuild .fold 60 0x10000#32 0x0000#16 []).acc.toNat ∧
    (inBuild .fold 60 0xFFFF#32 0x0000#16 []).acc.toNat ≤ 0xFFFF ∧
    (inBuild .fold 60 0xFFFF#32 0x0000#16 []).acc ≠ 0#32 := by decide

theorem witness_CplComplementsTheLowHalf : (inBuild .cpl 60 0xFFFF#32 0x0000#16 []).acc.toNat ≤ 0xFFFF := by decide

theorem witness_AppendWritesTheTrailer :
    (appendV2 []).params.csumOrder = .lowFirst ∧
    ({ appendV2 [] with params := ⟨13, .highFirst⟩ } : State).params.csumOrder = .highFirst := by decide

theorem witness_StepPriorityIsResetStartPhase :
    (fresh [.step startV2]).inputs = .step startV2 :: [] ∧ startV2.rst = false ∧ startV2.start = true ∧
    (fresh [.step startV2]).ph = .idle ∧
    ¬ (startV2.start = true ∧ ((appendV2 []).ph = .idle ∨ (appendV2 []).ph = .done)) ∧ startV2.stall = false ∧
    (fresh [.sample 0#6]).inputs = .sample 0#6 :: [] ∧ (StepInput.resetting true).rst = true := by decide

theorem witness_PhaseOrderIsTheStatedOne :
    step State.reset = .next State.reset ∧ (∃ t, step (appendV2 [.step stalled]) = .next t) := ⟨rfl, _, rfl⟩

theorem witness_StallChangesNothing :
    (appendV2 [.step stalled]).inputs = .step stalled :: [] ∧ stalled.stall = true ∧ stalled.rst = false ∧
    (appendV2 [.step stalled]).busyO = true ∧ (doneV2 [.step stalled]).busyO = false ∧
    ({ StepInput.resetting false with stall := true } : StepInput).rst = true := by decide

theorem witness_ConfigurationIsSampledOnce :
    (∃ t, step (fresh [.step startV2]) = .next t ∧ t.en = 0x89#8) ∧
    (appendV2 [.step startV2]).inputs = .step startV2 :: [] ∧
    ¬ (startV2.rst = false ∧ startV2.start = true ∧ ((appendV2 []).ph = .idle ∨ (appendV2 []).ph = .done)) :=
  ⟨⟨_, rfl, rfl⟩, rfl, by decide⟩

theorem witness_ParametersAndStimuliAreOnlyRead :
    ∃ t, step (fresh [.sample 3#6]) = .next t ∧ t.lastRead ≠ (fresh [.sample 3#6]).lastRead :=
  ⟨_, rfl, fun h => nomatch h⟩

theorem witness_StepKeepsTheInvariant :
    Inv (appendV2 []) ∧ (∃ t, step (appendV2 []) = .next t ∧ t.ph = .done) := ⟨inv_appendV2 [], _, rfl, rfl⟩

theorem witness_StatusOutputsAreAsStated :
    (Inv (doneV2 []) ∧ (doneV2 []).doneO = true ∧ (doneV2 []).params.csumOrder = .lowFirst) ∧
    (Inv (fresh []) ∧ (fresh []).doneO = false ∧ (fresh []).ph ≠ .append) ∧
    (Inv (appendV2 []) ∧ (appendV2 []).ph = .append) :=
  ⟨⟨inv_doneV2 [], rfl, rfl⟩, ⟨inv_fresh [], rfl, by decide⟩, inv_appendV2 [], rfl⟩

theorem witness_FrameIsPublishedAtDone :
    ((appendV2 []).rdValidO 61#6 = false ∧ ∃ t, step (appendV2 []) = .next t ∧ t.rdValidO 61#6 = true) ∧
    ((doneV2 [.step startV2]).ph = .done ∧ startV2.start = true ∧ ∃ t, step (doneV2 [.step startV2]) = .next t) ∧
    (Inv (doneV2 []) ∧ (doneV2 []).rdValidO 61#6 = true) :=
  ⟨⟨rfl, _, rfl, rfl⟩, ⟨rfl, rfl, _, rfl⟩, inv_doneV2 [], rfl⟩

theorem witness_FrameIsPublishedAtDone_together :
    (0#6).toNat < (appendV2 []).params.wireLen ∧ (61#6).toNat < (appendV2 []).params.wireLen := by decide

theorem witness_DoneIsImmutable : (doneV2 [.sample 0#6]).ph = .done ∧ ∃ t, step (doneV2 [.sample 0#6]) = .next t :=
  ⟨rfl, _, rfl⟩

theorem witness_OneBuildServesEveryPass :
    Inv (doneV2 [.sample 61#6]) ∧ (doneV2 [.sample 61#6]).ph = .done ∧
    (∀ x ∈ (doneV2 [.sample 61#6]).inputs, x.noRequest = true) ∧
    (∃ t, runSteps 0 (doneV2 [.sample 61#6]) = .next t ∧ t.inputs = .sample 61#6 :: []) ∧
    (61#6).toNat < (doneV2 [.sample 61#6]).params.wireLen :=
  ⟨inv_doneV2 _, rfl, by decide, ⟨_, rfl, rfl⟩, by decide⟩

/-- The stimuli before the last step of V2's build: one stall, one `START` dropped while busy, one read;
six of them proceed. -/
def beforeLast : List Stimulus :=
  [.step stalled, .step startV2, .sample 0#6, .step StepInput.quiet, .step StepInput.quiet, .step StepInput.quiet,
   .step StepInput.quiet, .step StepInput.quiet]

theorem witness_WholeBuildIsTheWireFrame :
    (let s := fresh (.step startV2 :: (beforeLast ++ .step StepInput.quiet :: [.sample 61#6]))
     s.ph = .idle ∧ s.inputs = .step startV2 :: (beforeLast ++ .step StepInput.quiet :: [.sample 61#6])) ∧
    startV2.rst = false ∧ startV2.start = true ∧
    wordSum (paddedFields Config.Params.spec startV2.enable startV2.quantum) = some 0x28454 ∧
    (∀ y ∈ beforeLast, y.noReset = true) ∧ (beforeLast.filter Stimulus.proceeds).length = 5 + foldsFrom 0x28454 ∧
    StepInput.quiet.rst = false ∧ StepInput.quiet.stall = false ∧
    (∀ y ∈ [Stimulus.sample 61#6], y.noRequest = true) :=
  ⟨⟨rfl, rfl⟩, rfl, rfl, sum_of_v2, by decide +kernel, by decide +kernel, rfl, rfl, by decide⟩

theorem witness_BuildTakesSixStepsPlusTheFolds :
    (fresh [.step startV2, .step startV2]).ph = .idle ∧
    (fresh [.step startV2, .step startV2]).inputs = .step startV2 :: [.step startV2] ∧
    startV2.rst = false ∧ startV2.start = true ∧
    (∀ x ∈ [Stimulus.step startV2], x.noReset = true ∧ x.proceeds = true) ∧
    wordSum (paddedFields Config.Params.spec startV2.enable startV2.quantum) = some 0x28454 ∧
    7 ≤ 6 + foldsFrom 0x28454 :=
  ⟨rfl, rfl, rfl, rfl, by decide, sum_of_v2, by decide⟩

/-- Eight steps without a request. -/
def eightSteps : List Stimulus := List.replicate 8 (.step StepInput.quiet)

theorem witness_NothingPersistsAcrossBuilds :
    (let s₁ := fresh (.step startV2 :: eightSteps)
     let s₂ := doneV2 (.step startV2 :: eightSteps)
     s₁.params = s₂.params ∧ s₁.ph = .idle ∧ s₂.ph = .done ∧
      (∃ t₁, runSteps (1 + eightSteps.length) s₁ = .next t₁) ∧
      (∃ t₂, runSteps (1 + eightSteps.length) s₂ = .next t₂)) ∧
    startV2.rst = false ∧ startV2.start = true ∧ (∀ x ∈ eightSteps, x.noRequest = true) ∧
    8 ≤ (eightSteps.filter Stimulus.proceeds).length :=
  ⟨⟨rfl, rfl, rfl, next_of_after (by decide +kernel), next_of_after (by decide +kernel)⟩, rfl, rfl, by decide, by decide⟩

theorem witness_FoldIsLeftAfterAtMostTwoFolds :
    (inBuild .fold 60 0x8FFF8#32 0x0000#16 [.step StepInput.quiet]).ph = .fold ∧
    (∀ x ∈ [Stimulus.step StepInput.quiet], x.noRequest = true ∧ x.proceeds = true) ∧
    (0x9964D#32).toNat ≤ 0x9964D ∧ 0xFFFF < (foldOnce 0x8FFF8#32).toNat ∧
    wordSum (paddedFields Config.Params.spec 0x89#8 quantaV2) = some 0x28454 :=
  ⟨rfl, by decide, by decide, by decide, sum_of_v2⟩

theorem witness_WireFrameIsTheWireFormatTable :
    Config.Params.spec.csumOrder = .lowFirst ∧ (⟨14, .highFirst⟩ : Config.Params).csumOrder = .highFirst ∧
    34 ≤ 59 ∧ 59 < 34 + Config.Params.spec.padLen := by decide

theorem witness_ClassEnableLoopGivesTheEnableByte :
    ([7, 6, 5, 4, 3, 2, 1, 0] : List (Fin 8)).Perm (List.finRange 8) := by decide

theorem witness_ChecksumIsDefinedOnEvenLengths :
    (frameV2.take 60).length = 2 * 30 ∧ ([0x01#8] : List Byte).length % 2 = 1 := by decide

/-- V10 and V11: the quanta of classes 0 and 7 exchanged. -/
theorem witness_ChecksumHasTheClosedForm :
    (#v[0x0102#16, 0x0304#16, 0x0506#16, 0x0708#16, 0x090A#16, 0x0B0C#16, 0x0D0E#16, 0x0F10#16] : Quanta).toList.Perm
      (#v[0x0F10#16, 0x0304#16, 0x0506#16, 0x0708#16, 0x090A#16, 0x0B0C#16, 0x0D0E#16, 0x0102#16] : Quanta).toList := by
  decide

theorem witness_ThreeFoldProceduresAgree :
    0x1DFFE2 ≤ 0x1DFFE2 ∧ wordSum (paddedFields Config.Params.spec 0x89#8 quantaV2) = some 0x28454 :=
  ⟨by decide, sum_of_v2⟩

theorem witness_FrameVerifiesItself :
    wordSum (paddedFields Config.Params.spec 0x89#8 quantaV2) = some 0x28454 ∧
    checksumOf (paddedFields Config.Params.spec 0x89#8 quantaV2) = some 0x7BA9#16 ∧
    Config.Params.spec.csumOrder = .lowFirst ∧ wireFrame Config.Params.spec 0x89#8 quantaV2 = some frameV2 :=
  ⟨sum_of_v2, checksum_of_v2, rfl, test_frame_v2⟩

theorem witness_ChecksumIsNeverAllOnes :
    checksumOf (paddedFields Config.Params.spec 0x89#8 quantaV2) = some 0x7BA9#16 ∧ (0x0000#16 : Half) ≠ 0xFFFF#16 ∧
    Inv (doneV2 []) := ⟨checksum_of_v2, by decide, inv_doneV2 []⟩

theorem witness_FrameBufferReadsBackWhatWasWritten :
    Memory.wf (doneV2 []).fb = true ∧ (61 < 60 ∨ 60 + [0xA9#8].length ≤ 61) := by decide +kernel

theorem witness_ReservedBytesAreConstantInDone :
    Inv (doneV2 []) ∧ (doneV2 []).ph = .done ∧ 34 ≤ 59 ∧ 59 < 34 + (doneV2 []).params.padLen :=
  ⟨inv_doneV2 [], rfl, by decide, by decide⟩

theorem witness_FrameBufferHasValuesOnlyBelowTheWritePointer :
    (Inv (appendV2 []) ∧ (appendV2 []).wp.toNat ≤ 60) ∧ (Inv (fresh []) ∧ (fresh []).ph = .idle) ∧
    (Inv (doneV2 []) ∧ (doneV2 []).ph = .done ∧ ∃ t, step (doneV2 []) = .next t) ∧ (appendV2 []).ph ≠ .done :=
  ⟨⟨inv_appendV2 [], by decide⟩, ⟨inv_fresh [], rfl⟩, ⟨inv_doneV2 [], rfl, _, rfl⟩, by decide⟩

/-- Two states that differ in every field but the block, the parameters and the next stimulus. -/
theorem witness_NextBlockDependsOnTheBlockAndThePorts :
    (let s := doneV2 [.step startV2]
     let u : State := { doneV2 [.step startV2, .sample 0#6] with draws := 5, fbEpoch := 7, lastRead := some ⟨0#6, false, 0#8⟩ }
     Inv s ∧ s.toBlock = u.toBlock ∧ s.params = u.params ∧ s.inputs.head? = u.inputs.head? ∧
      (∃ t, step s = .next t) ∧ (∃ v, step u = .next v)) :=
  ⟨inv_doneV2 _, rfl, rfl, rfl, ⟨_, rfl⟩, _, rfl⟩

end Sys2Proof.Tests
end

section
/-! The frame buffer as data: what `MemRead` returns after `MemWrite` (20_memory.md R64), and that a canonical memory is
determined by what its addresses load. -/

namespace Sys2Proof.Machine

theorem Memory.load_head (c : Host.Cell) (m : Memory) : Memory.load (c :: m) c.1 = some c.2 := by
  rw [Memory.load_cons, if_pos rfl]

theorem Memory.wf_cons (c : Host.Cell) (m : Memory) :
    Memory.wf (c :: m) = true ↔ (∀ d ∈ m, c.1 < d.1) ∧ Memory.wf m = true := by
  simp only [Memory.wf, Bool.and_eq_true, List.all_eq_true, decide_eq_true_eq]

/-- The first cell of a canonical memory has the least address with a value. -/
theorem Memory.head_le_of_load {c : Host.Cell} {m : Memory} {k : Nat} {b : Byte} (hwf : Memory.wf (c :: m) = true)
    (hk : Memory.load (c :: m) k = some b) : c.1 ≤ k := by
  obtain ⟨hc, -⟩ := (Memory.wf_cons c m).mp hwf
  by_contra hlt
  have hnone : Memory.load (c :: m) k = none := Memory.load_eq_none_of_lt fun d hd => by
    rcases List.mem_cons.mp hd with rfl | hd
    · omega
    · have := hc d hd
      omega
  simp [hnone] at hk

/-- Behind its first cell a canonical memory loads the same, without a value at the first cell's address. -/
theorem Memory.load_tail {c : Host.Cell} {m : Memory} (hwf : Memory.wf (c :: m) = true) (k : Nat) :
    Memory.load m k = if c.1 = k then none else Memory.load (c :: m) k := by
  obtain ⟨hc, -⟩ := (Memory.wf_cons c m).mp hwf
  by_cases hk : c.1 = k
  · subst hk
    rw [if_pos rfl, Memory.load_eq_none_of_lt hc]
  · rw [if_neg hk, Memory.load_cons, if_neg hk]

/-- Equal contents are equal data. -/
theorem Memory.eq_of_load_eq {m m' : Memory} (hm : Memory.wf m = true) (hm' : Memory.wf m' = true)
    (h : ∀ k, Memory.load m k = Memory.load m' k) : m = m' := by
  induction m generalizing m' with
  | nil =>
    cases m' with
    | nil => rfl
    | cons d m' => simpa [Memory.load_nil, Memory.load_head] using h d.1
  | cons c m ih =>
    cases m' with
    | nil => simpa [Memory.load_nil, Memory.load_head] using h c.1
    | cons d m' =>
      have hc : Memory.load (d :: m') c.1 = some c.2 := (h c.1).symm.trans (Memory.load_head c m)
      have hd : Memory.load (c :: m) d.1 = some d.2 := (h d.1).trans (Memory.load_head d m')
      have haddr : c.1 = d.1 := Nat.le_antisymm (Memory.head_le_of_load hm hd) (Memory.head_le_of_load hm' hc)
      have hval : c.2 = d.2 := by
        rw [haddr, Memory.load_head] at hc
        exact (Option.some.inj hc).symm
      have htail : m = m' := by
        refine ih ((Memory.wf_cons c m).mp hm).2 ((Memory.wf_cons d m').mp hm').2 fun k => ?_
        rw [Memory.load_tail hm, Memory.load_tail hm', haddr, h]
      rw [Prod.ext haddr hval, htail]

/-- Bytes that have the values of a sequence are read as that sequence. -/
theorem State.memRead_eq_of_load {s : State} {a : Nat} {v : List Byte}
    (h : ∀ k, k < v.length → Memory.load s.fb (a + k) = v[k]?) : s.memRead a v.length = v := by
  apply List.ext_getElem?
  intro k
  by_cases hk : k < v.length
  · have hload : Memory.load s.fb (a + k) = some v[k] := (h k hk).trans (List.getElem?_eq_getElem hk)
    rw [State.memRead_getElem? s a v.length k hk, State.frameByte_of_load hload, List.getElem?_eq_getElem hk]
  · have hlen : (s.memRead a v.length).length ≤ k := by
      rw [State.memRead_length]
      omega
    rw [List.getElem?_eq_none hlen, List.getElem?_eq_none (by omega)]

/-- What is written is read back. -/
theorem State.memRead_memWrite (s : State) (addr : Nat) (v : List Byte) :
    (s.memWrite addr v).memRead addr v.length = v := by
  refine State.memRead_eq_of_load fun k hk => ?_
  rw [State.memWrite_fb, Memory.load_storeBytes_inside _ _ _ _ (by omega) (by omega), Nat.add_sub_cancel_left]

/-- Settles O44: the written range reads back byte by byte, and canonical memories are compared cell by cell, least
address first. -/
theorem frameBufferReadsBackWhatWasWritten : Obligations.FrameBufferReadsBackWhatWasWritten := by
  refine ⟨fun s addr v => ⟨s.memRead_memWrite addr v, ?frame, ?canonical, rfl, rfl, rfl, rfl, rfl, rfl⟩,
    fun _ _ => Memory.eq_of_load_eq⟩
  case frame => exact fun k hk => Memory.load_storeBytes_outside s.fb addr v k hk
  case canonical => exact Memory.wf_storeBytes s.fb addr v

end Sys2Proof.Machine
end

section
/-! The two named parameters (00_scope.md R6): the legal values of `PAD_LEN` (43_padder.md R183). -/

namespace Sys2Proof.Machine

/-- The parameter type holds exactly the even padding lengths whose frame length fits in the 7 bits of `WP`. -/
theorem legal_iff_exists_padLen (n : Nat) :
    n % 2 = 0 ∧ 34 + n + 2 ≤ 2 ^ 7 - 1 ↔ ∃ p : Config.Params, p.padLen = n := by
  constructor
  · rintro ⟨heven, hle⟩
    have hhalf : n / 2 < 46 := by omega
    refine ⟨⟨⟨n / 2, hhalf⟩, .lowFirst⟩, ?_⟩
    show 2 * (n / 2) = n
    omega
  · rintro ⟨p, rfl⟩
    have hwire : p.wireLen < 2 ^ 7 := wireLen_lt p
    rw [wireLen_eq, padTarget_eq] at hwire
    exact ⟨Nat.mul_mod_right 2 p.padWords.val, by omega⟩

/-- Settles O2: the defaults are those of `Config.Params.spec`, and the legal lengths are the parameter type's. -/
theorem parametersAreTheSpecs : Obligations.ParametersAreTheSpecs :=
  ⟨rfl, rfl, rfl, rfl, rfl, rfl, legal_iff_exists_padLen, fun p => ⟨padTarget_eq p, wireLen_eq p, padTarget_even p⟩⟩

end Sys2Proof.Machine
end

section
/-! The invariant of every state a run reaches (10_state.md R24 to R27, R36): it holds where the working registers are
cleared, a phase that writes extends the frame so far, and a phase that computes leaves the frame as it is. -/

namespace Sys2Proof.Machine

/-- A write right behind the part of a sequence that a memory holds extends that part. -/
theorem Memory.load_storeBytes_extends {m : Memory} {a : Nat} {pre v rest : List Byte} (hpre : pre.length = a)
    (hm : ∀ k, k < a → Memory.load m k = (pre ++ v ++ rest)[k]?) :
    ∀ k, k < a + v.length → Memory.load (Memory.storeBytes m a v) k = (pre ++ v ++ rest)[k]? := by
  intro k hk
  by_cases hka : k < a
  · rw [Memory.load_storeBytes_outside m a v k (.inl hka), hm k hka]
  · have hpv : k < (pre ++ v).length := by simp; omega
    rw [Memory.load_storeBytes_inside m a v k (by omega) hk, List.getElem?_append_left hpv,
      List.getElem?_append_right (by omega), hpre]

/-- From a bound of the listed addresses on, no byte has a value. -/
theorem Memory.load_eq_none_of_ge {m : Memory} {n k : Nat} (hm : ∀ c ∈ m, c.1 < n) (hk : n ≤ k) :
    Memory.load m k = none := by
  induction m with
  | nil => rfl
  | cons c m ih =>
    have hc : c.1 < n := hm c (by simp)
    rw [Memory.load_cons, if_neg (by omega)]
    exact ih fun d hd => hm d (List.mem_cons_of_mem c hd)

theorem wpOf_le_wireLen (p : Config.Params) (ph : Phase) : wpOf p ph ≤ p.wireLen := by
  cases ph <;> simp only [wpOf, Config.fieldsLen, wireLen_eq, padTarget_eq] <;> omega

theorem padTarget_lt (p : Config.Params) : p.padTarget < 2 ^ 7 := by
  have hlt := wireLen_lt p
  rw [wireLen_eq] at hlt
  omega

/-- The padded frame fields with a trailer are `WIRE_LEN` bytes. -/
theorem frame_length (p : Config.Params) (en : BitVec 8) (q : Quanta) (c : Half) :
    (paddedFields p en q ++ trailer p.csumOrder c).length = p.wireLen := by
  rw [List.length_append, paddedFields_length, trailer_length, wireLen_eq]

/-- Before the trailer is due, the frame's bytes do not depend on it. -/
theorem frame_getElem?_fields {p : Config.Params} {en : BitVec 8} {q : Quanta} {k : Nat} (hk : k < p.padTarget)
    (tr : List Byte) : (paddedFields p en q ++ tr)[k]? = (paddedFields p en q)[k]? :=
  List.getElem?_append_left (by rwa [paddedFields_length])

/-- The frame fields and the padding have a word sum, because `PAD_LEN` is even (43_padder.md R183). -/
theorem exists_wordSum_paddedFields (p : Config.Params) (en : BitVec 8) (q : Quanta) :
    ∃ n, wordSum (paddedFields p en q) = some n :=
  ⟨_, wordSum_eq_some _ _ ((paddedFields_length p en q).trans (padTarget_even p))⟩

/-- The accumulator's sum over the bytes of a sequence is the exact word sum of the sequence. -/
theorem sumWords32_eq_wordSum {f : Nat → Byte} {b : List Byte} {m n : Nat} (hlen : b.length = 2 * m)
    (hm : m ≤ 65536) (hf : ∀ k, k < b.length → b[k]? = some (f k)) (hn : wordSum b = some n) :
    (sumWords32 f m).toNat = n := by
  rw [wordSum_eq_some b m hlen] at hn
  obtain rfl := Option.some.inj hn
  rw [(sumWords32_toNat f m hm).1]
  congr 1
  refine List.map_congr_left fun k hk => ?_
  have hkm : k < m := List.mem_range.mp hk
  rw [List.getD_eq_getElem?_getD, List.getD_eq_getElem?_getD, hf (2 * k) (by omega), hf (2 * k + 1) (by omega)]
  rfl

/-- The complement of the folded sum is the checksum (42_checksum.md R160, R163). -/
theorem checksumOf_eq_complement16 {b : List Byte} {n : Nat} {acc : BitVec 32} (hn : wordSum b = some n)
    (hacc : acc.toNat = foldAll n) : checksumOf b = some (complement16 acc) := by
  rw [checksumOf_of_wordSum hn]
  congr 1
  apply BitVec.eq_of_toNat_eq
  rw [complement16_toNat, hacc, BitVec.toNat_not, BitVec.toNat_ofNat]

namespace Inv

/-- The invariant is about the block and the parameters only. -/
theorem congr {s t : State} (hi : Inv s) (hb : s.toBlock = t.toBlock) (hp : s.params = t.params) : Inv t := by
  obtain ⟨b, p⟩ := s
  obtain ⟨b', p'⟩ := t
  obtain rfl : b = b' := hb
  obtain rfl : p = p' := hp
  exact ⟨hi.memoryCanonical, hi.memoryBelowWp, hi.writePointer, hi.frameSoFar, hi.accumulator, hi.checksum,
    hi.idleConfig⟩

/-- Where the working registers are cleared, as `RESET` and `START` leave them, the invariant holds. -/
theorem of_cleared {s : State} (hph : s.ph = .idle ∨ s.ph = .build) (hwp : s.wp = 0#7) (hacc : s.acc = 0#32)
    (hcsum : s.csum = 0x0000#16) (hfb : s.fb = []) (hcfg : s.ph = .idle → s.en = 0x00#8 ∧ s.q = Quanta.zero) :
    Inv s where
  memoryCanonical := by rw [hfb]; rfl
  memoryBelowWp := by simp [hfb]
  writePointer := by rcases hph with h | h <;> rw [h, hwp] <;> rfl
  frameSoFar := by simp [hwp]
  accumulator := fun n _ => by rcases hph with h | h <;> rw [h] <;> exact hacc
  checksum := by rcases hph with h | h <;> rw [h] <;> exact hcsum
  idleConfig := hcfg

section
variable {s : State} (hi : Inv s)
include hi

theorem wp_of_phase {ph : Phase} (hph : s.ph = ph) : s.wp.toNat = wpOf s.params ph := hph ▸ hi.writePointer

theorem load_eq_none {k : Nat} (hk : s.wp.toNat ≤ k) : Memory.load s.fb k = none :=
  Memory.load_eq_none_of_ge hi.memoryBelowWp hk

/-- Below `WP` every byte has a value. -/
theorem exists_load {k : Nat} (hk : k < s.wp.toNat) : ∃ b, Memory.load s.fb k = some b := by
  have hwp : s.wp.toNat ≤ s.params.wireLen := hi.writePointer ▸ wpOf_le_wireLen s.params s.ph
  refine ⟨_, (hi.frameSoFar k hk).trans (List.getElem?_eq_getElem ?_)⟩
  rw [frame_length]
  omega

/-- A phase that writes `v` at `WP`, where the frame goes on with `v`, and leaves `ACC` and `CSUM` as they are. -/
theorem of_write {t : State} {pre v rest : List Byte}
    (hframe : paddedFields s.params s.en s.q ++ trailer s.params.csumOrder s.csum = pre ++ v ++ rest)
    (hpre : pre.length = s.wp.toNat) (hfb : t.fb = Memory.storeBytes s.fb s.wp.toNat v)
    (hwp : t.wp.toNat = s.wp.toNat + v.length)
    (hkeep : t.en = s.en ∧ t.q = s.q ∧ t.acc = s.acc ∧ t.csum = s.csum ∧ t.params = s.params)
    (hph : s.wp.toNat + v.length = wpOf s.params t.ph) (hidle : t.ph ≠ .idle)
    (hacc : ∀ n, accAt n s.acc s.ph → accAt n s.acc t.ph)
    (hcsum : ∀ c, csumAt c s.csum s.ph → csumAt c s.csum t.ph) : Inv t := by
  obtain ⟨hen, hq, ha, hc, hp⟩ := hkeep
  constructor
  case memoryCanonical => exact hfb ▸ Memory.wf_storeBytes _ _ _ hi.memoryCanonical
  case memoryBelowWp =>
    rw [hfb, hwp]
    exact Memory.lt_of_mem_storeBytes (fun c hm => Nat.lt_add_right _ (hi.memoryBelowWp c hm)) (Nat.le_refl _)
  case writePointer => rw [hwp, hp, hph]
  case frameSoFar =>
    rw [hfb, hwp, hen, hq, hc, hp, hframe]
    exact Memory.load_storeBytes_extends hpre (hframe ▸ hi.frameSoFar)
  case accumulator =>
    rw [hen, hq, ha, hp]
    exact fun n hn => hacc n (hi.accumulator n hn)
  case checksum =>
    rw [hen, hq, hc, hp]
    exact hcsum _ hi.checksum
  case idleConfig => exact fun h => absurd h hidle

/-- A phase that computes: `FB` and `WP` stay as they are, at or before the trailer. -/
theorem of_compute {t : State}
    (hkeep : t.fb = s.fb ∧ t.en = s.en ∧ t.q = s.q ∧ t.wp = s.wp ∧ t.params = s.params)
    (hwp : s.wp.toNat = s.params.padTarget) (hph : s.params.padTarget = wpOf s.params t.ph) (hidle : t.ph ≠ .idle)
    (hacc : ∀ n, wordSum (paddedFields s.params s.en s.q) = some n → accAt n t.acc t.ph)
    (hcsum : csumAt (checksumOf (paddedFields s.params s.en s.q)) t.csum t.ph) : Inv t := by
  obtain ⟨hfb, hen, hq, hw, hp⟩ := hkeep
  constructor
  case memoryCanonical => exact hfb ▸ hi.memoryCanonical
  case memoryBelowWp => rw [hfb, hw]; exact hi.memoryBelowWp
  case writePointer => rw [hw, hp, hwp, hph]
  case frameSoFar =>
    intro k hk
    rw [hw] at hk
    have hkp : k < s.params.padTarget := hwp ▸ hk
    rw [hfb, hen, hq, hp, hi.frameSoFar k hk, frame_getElem?_fields hkp, frame_getElem?_fields hkp]
  case accumulator => rwa [hen, hq, hp]
  case checksum => rwa [hen, hq, hp]
  case idleConfig => exact fun h => absurd h hidle

/-- In `SUM` the bytes that are summed are the padded frame fields. -/
theorem paddedFields_getElem?_of_sum (hph : s.ph = .sum) {k : Nat} (hk : k < s.params.padTarget) :
    (paddedFields s.params s.en s.q)[k]? = some (s.frameByte k) := by
  have hwp : s.wp.toNat = s.params.padTarget := hi.wp_of_phase hph
  obtain ⟨b, hb⟩ := hi.exists_load (hwp ▸ hk)
  rw [State.frameByte_of_load hb, ← hb, hi.frameSoFar k (hwp ▸ hk), frame_getElem?_fields hk]

/-- `BUILD` writes the frame fields at the beginning. -/
theorem of_execBuild (hph : s.ph = .build) {t : State} (ht : execBuild s = .next t) : Inv t := by
  obtain ⟨hpht, hwpt, hfb, hen, hq, hacct, hc, hp, -⟩ := execBuild_spec ht
  have hwp : s.wp.toNat = 0 := hi.wp_of_phase hph
  refine hi.of_write (pre := []) (v := frameFields s.en s.q)
    (rest := zeros s.params.padLen ++ trailer s.params.csumOrder s.csum) ?_ hwp.symm (hwp ▸ hfb) ?_
    ⟨hen, hq, hacct, hc, hp.symm⟩ ?_ ?_ ?_ ?_
  · exact List.append_assoc _ _ _
  · rw [hwpt, hwp]; rfl
  · rw [hpht, hwp]; rfl
  · simp [hpht]
  · rw [hph, hpht]; exact fun _ => id
  · rw [hph, hpht]; exact fun _ => id

/-- `PAD` goes on with the zero bytes. -/
theorem of_execPad (hph : s.ph = .pad) {t : State} (ht : execPad s = .next t) : Inv t := by
  obtain ⟨hpht, hwpt, hfb, hen, hq, hacct, hc, hp, -⟩ := execPad_spec ht
  have hwp : s.wp.toNat = 34 := hi.wp_of_phase hph
  refine hi.of_write (pre := frameFields s.en s.q) (v := zeros s.params.padLen)
    (rest := trailer s.params.csumOrder s.csum) rfl hwp.symm (hwp ▸ hfb) ?_ ⟨hen, hq, hacct, hc, hp.symm⟩ ?_ ?_ ?_ ?_
  · rw [hwpt, hwp, zeros_length, ← padTarget_eq, BitVec.toNat_ofNat, Nat.mod_eq_of_lt (padTarget_lt s.params)]
  · rw [hpht, hwp, zeros_length, ← padTarget_eq]; rfl
  · simp [hpht]
  · rw [hph, hpht]; exact fun _ => id
  · rw [hph, hpht]; exact fun _ => id

/-- `SUM` puts the exact word sum into `ACC`. -/
theorem of_execSum (hph : s.ph = .sum) {t : State} (ht : execSum s = .next t) : Inv t := by
  obtain ⟨hpht, hacct, hfb, hen, hq, hw, hc, hp, -⟩ := execSum_spec ht
  have hwp : s.wp.toNat = s.params.padTarget := hi.wp_of_phase hph
  have hcsum := hi.checksum
  rw [hph] at hcsum
  refine hi.of_compute ⟨hfb, hen, hq, hw, hp.symm⟩ hwp ?_ ?_ ?_ ?_
  · rw [hpht]; rfl
  · simp [hpht]
  · intro n hn
    have heven := padTarget_even s.params
    have hlt := padTarget_lt s.params
    have hsum : t.acc.toNat = n := by
      rw [hacct]
      refine sumWords32_eq_wordSum ((paddedFields_length _ _ _).trans heven) (by omega) (fun k hk => ?_) hn
      exact hi.paddedFields_getElem?_of_sum hph (by rwa [paddedFields_length] at hk)
    rw [hpht]
    exact congrArg foldAll hsum
  · rwa [hpht, hc]

/-- `FOLD` keeps the value the loop ends with, and leaves when it has it. -/
theorem of_execFold (hph : s.ph = .fold) {t : State} (ht : execFold s = .next t) : Inv t := by
  obtain ⟨hcases, hfb, hen, hq, hw, hc, hp, -⟩ := execFold_spec ht
  have hwp : s.wp.toNat = s.params.padTarget := hi.wp_of_phase hph
  have hacc := hi.accumulator
  have hcsum := hi.checksum
  rw [hph] at hacc hcsum
  rcases hcases with ⟨hbig, hpht, hacct⟩ | ⟨hsmall, hpht, hacct⟩ <;>
    refine hi.of_compute ⟨hfb, hen, hq, hw, hp.symm⟩ hwp (hpht ▸ rfl) (by simp [hpht]) (fun n hn => ?_)
      (by rwa [hpht, hc]) <;>
    rw [hpht, hacct]
  · calc foldAll (foldOnce s.acc).toNat = foldAll s.acc.toNat := by rw [foldOnce_toNat, ← foldAll_of_lt hbig]
      _ = foldAll n := hacc n hn
  · calc s.acc.toNat = foldAll s.acc.toNat := (foldAll_of_le hsmall).symm
      _ = foldAll n := hacc n hn

/-- `CPL` complements the folded sum, which gives the checksum. -/
theorem of_execCpl (hph : s.ph = .cpl) {t : State} (ht : execCpl s = .next t) : Inv t := by
  obtain ⟨hpht, hct, hfb, hen, hq, hw, hacct, hp, -⟩ := execCpl_spec ht
  have hwp : s.wp.toNat = s.params.padTarget := hi.wp_of_phase hph
  have hacc := hi.accumulator
  rw [hph] at hacc
  obtain ⟨n, hn⟩ := exists_wordSum_paddedFields s.params s.en s.q
  refine hi.of_compute ⟨hfb, hen, hq, hw, hp.symm⟩ hwp (hpht ▸ rfl) (by simp [hpht]) ?_ ?_
  · rwa [hpht, hacct]
  · rw [hpht, hct]
    exact checksumOf_eq_complement16 hn (hacc n hn)

/-- `APPEND` ends the frame with the trailer. -/
theorem of_execAppend (hph : s.ph = .append) {t : State} (ht : execAppend s = .next t) : Inv t := by
  obtain ⟨hpht, hwpt, hfb, hen, hq, hacct, hc, hp, -⟩ := execAppend_spec ht
  have hwp : s.wp.toNat = s.params.padTarget := hi.wp_of_phase hph
  refine hi.of_write (pre := paddedFields s.params s.en s.q) (v := trailer s.params.csumOrder s.csum) (rest := [])
    (List.append_nil _).symm ((paddedFields_length _ _ _).trans hwp.symm) (hwp ▸ hfb) ?_ ⟨hen, hq, hacct, hc, hp.symm⟩
    ?_ ?_ ?_ ?_
  · rw [hwpt, hwp, trailer_length, ← wireLen_eq, BitVec.toNat_ofNat, Nat.mod_eq_of_lt (wireLen_lt s.params)]
  · rw [hpht, hwp, trailer_length]; rfl
  · simp [hpht]
  · rw [hph, hpht]; exact fun _ => id
  · rw [hph, hpht]; exact fun _ => id

/-- The operation of the phase keeps the invariant. -/
theorem of_phaseOperation {t : State} (ht : phaseOperation s = .next t) : Inv t := by
  cases hph : s.ph <;> simp only [phaseOperation, hph] at ht
  case idle => cases ht; exact hi
  case build => exact hi.of_execBuild hph ht
  case pad => exact hi.of_execPad hph ht
  case sum => exact hi.of_execSum hph ht
  case fold => exact hi.of_execFold hph ht
  case cpl => exact hi.of_execCpl hph ht
  case append => exact hi.of_execAppend hph ht
  case done => cases ht; exact hi

/-- What the environment does next is no part of the invariant. -/
theorem of_setInputs (l : List Stimulus) : Inv (s.setInputs l) := hi.congr rfl rfl

end

/-- Every step keeps the invariant. -/
theorem of_step {s t : State} (hi : Inv s) (ht : step s = .next t) : Inv t := by
  obtain ⟨-, h⟩ | ⟨a, rest, -, h⟩ | ⟨p, rest, -, -, h⟩ | ⟨p, rest, -, -, -, -, h⟩ | ⟨p, rest, -, -, -, h⟩ |
    ⟨p, rest, -, -, -, -, h⟩ := step_cases s <;> rw [h] at ht
  · exact hi.of_phaseOperation ht
  · cases ht; exact hi.congr rfl rfl
  · cases ht; exact of_cleared (.inl rfl) rfl rfl rfl rfl fun _ => ⟨rfl, rfl⟩
  · cases ht; exact of_cleared (.inr rfl) rfl rfl rfl rfl fun h => nomatch h
  · cases ht; exact hi.of_setInputs rest
  · exact (hi.of_setInputs rest).of_phaseOperation ht

end Inv

/-- Settles O27: at reset the working registers are cleared and nothing is latched. -/
theorem invariantHoldsAtReset : Obligations.InvariantHoldsAtReset :=
  fun _ _ => Inv.of_cleared (.inl rfl) rfl rfl rfl rfl fun _ => ⟨rfl, rfl⟩

/-- Settles O28, by the six things a step can be and, for the operation of the phase, phase by phase. -/
theorem stepKeepsTheInvariant : Obligations.StepKeepsTheInvariant := fun _ _ hi ht => hi.of_step ht

end Sys2Proof.Machine
end

section
/-! What the buffer holds and what can be read of it (10_state.md R27, 40_sequencer_and_host.md R116). -/

namespace Sys2Proof.Machine

theorem rdValidO_iff (s : State) (a : BitVec 6) :
    s.rdValidO a = true ↔ s.ph = .done ∧ a.toNat < s.params.wireLen := by
  simp [State.rdValidO, doneO_iff]

theorem rdDataO_of_valid {s : State} {a : BitVec 6} (h : s.rdValidO a = true) : s.rdDataO a = s.frameByte a.toNat := by
  rw [State.rdDataO, if_pos h]

theorem rdDataO_of_not_valid {s : State} {a : BitVec 6} (h : s.rdValidO a = false) :
    s.rdDataO a = Config.freeReadData s.draws := by
  simp [State.rdDataO, h]

/-- In `DONE` the buffer is the frame of the latched configuration, and nothing beyond it. -/
theorem Inv.load_of_done {s : State} (hi : Inv s) (hph : s.ph = .done) :
    ∃ w, wireFrame s.params s.en s.q = some w ∧ ∀ k, Memory.load s.fb k = w[k]? := by
  have hcsum := hi.checksum
  rw [hph] at hcsum
  refine ⟨_, wireFrame_of_checksum hcsum, fun k => ?_⟩
  by_cases hk : k < s.wp.toNat
  · exact hi.frameSoFar k hk
  · have hwp : s.wp.toNat = s.params.wireLen := hi.wp_of_phase hph
    rw [hi.load_eq_none (by omega), List.getElem?_eq_none (by rw [frame_length]; omega)]

/-- A valid read shows a byte of the frame. -/
theorem Inv.wireFrame_getElem?_of_valid {s : State} (hi : Inv s) {a : BitVec 6} (hv : s.rdValidO a = true) :
    ∃ w, wireFrame s.params s.en s.q = some w ∧ w[a.toNat]? = some (s.rdDataO a) := by
  obtain ⟨hph, ha⟩ := (rdValidO_iff s a).mp hv
  obtain ⟨w, hw, hload⟩ := hi.load_of_done hph
  have hwp : s.wp.toNat = s.params.wireLen := hi.wp_of_phase hph
  obtain ⟨b, hb⟩ := hi.exists_load (hwp ▸ ha)
  refine ⟨w, hw, ?_⟩
  rw [← hload, hb, rdDataO_of_valid hv, State.frameByte_of_load hb]

theorem phaseOperation_of_done {s : State} (hph : s.ph = .done) : phaseOperation s = .next s := by
  simp only [phaseOperation, hph, execDone]

/-- From `DONE`, a step without a request leaves the block and the parameters as they are. -/
theorem step_of_done {s t : State} (hph : s.ph = .done) (ht : step s = .next t) :
    (∃ p rest, s.inputs = .step p :: rest ∧ (p.rst = true ∨ p.start = true)) ∨
      (t.toBlock = s.toBlock ∧ t.params = s.params) := by
  rcases step_cases s with ⟨-, h⟩ | ⟨a, rest, -, h⟩ | ⟨p, rest, hin, hr, -⟩ | ⟨p, rest, hin, -, hs, -⟩ |
    ⟨p, rest, -, -, -, h⟩ | ⟨p, rest, -, -, -, -, h⟩
  · rw [h, phaseOperation_of_done hph] at ht; cases ht; exact .inr ⟨rfl, rfl⟩
  · rw [h] at ht; cases ht; exact .inr ⟨rfl, rfl⟩
  · exact .inl ⟨p, rest, hin, .inl hr⟩
  · exact .inl ⟨p, rest, hin, .inr hs⟩
  · rw [h] at ht; cases ht; exact .inr ⟨rfl, rfl⟩
  · rw [h, phaseOperation_of_done (s := s.setInputs rest) hph] at ht; cases ht; exact .inr ⟨rfl, rfl⟩

/-- Settles O46: the invariant bounds the listed addresses by `WP`, and in `DONE` a step without a request is waiting. -/
theorem frameBufferHasValuesOnlyBelowTheWritePointer :
    Obligations.FrameBufferHasValuesOnlyBelowTheWritePointer := by
  refine ⟨fun s hi => ⟨fun k => hi.load_eq_none, fun hph k => ?idle, hi.load_of_done⟩, fun s t hph ht => ?done,
    fun s a hph => ?unreadable⟩
  case idle =>
    have hwp : s.wp.toNat = 0 := hi.wp_of_phase hph
    exact hi.load_eq_none (by omega)
  case done =>
    rcases step_of_done hph ht with hreq | ⟨hb, hp⟩
    · exact .inl hreq
    · obtain ⟨hpht, hen, hq, -, -, -, hfb⟩ := State.sameRegisters_fields hb
      exact .inr ⟨hpht.trans hph, hfb, hen, hq, hp⟩
  case unreadable => exact Bool.eq_false_iff.mpr fun hv => hph ((rdValidO_iff s a).mp hv).1

/-- Settles O14, from the read port's two values. -/
theorem readShowsTheByteAndChangesNothing : Obligations.ReadShowsTheByteAndChangesNothing := by
  refine fun s a => ⟨_, execRead_eq a s, rfl, rfl, rfl, rfl, _, rfl, rfl, rdValidO_iff s a, fun hv => ⟨?draws, ?byte⟩,
    fun hv => ⟨rdDataO_of_not_valid hv, ?counts⟩, fun hi hv => hi.wireFrame_getElem?_of_valid hv⟩
  case draws => exact if_pos hv
  case byte => exact fun b hb => (rdDataO_of_valid hv).trans (State.frameByte_of_load hb)
  case counts => exact if_neg (Bool.eq_false_iff.mp hv)

end Sys2Proof.Machine
end

section
/-! The values after `RESET` and `START` (10_state.md R34, 40_sequencer_and_host.md R112), and the operation that a placed
word makes the next step run (log entries 10, 11). -/

namespace Sys2Proof.Machine

theorem zeroQuanta_getElem (i : Fin 8) : Quanta.zero[i] = 0x0000#16 := by
  simp [Quanta.zero]

/-- Settles O1: the reset state is given by its fields. -/
theorem resetStateHasTheSpecsValues : Obligations.ResetStateHasTheSpecsValues :=
  ⟨rfl, rfl, zeroQuanta_getElem, rfl, rfl, rfl, Memory.load_nil, rfl, rfl, rfl, rfl, fun _ => rfl⟩

/-- Settles O12: an accepted `START` goes to `BUILD`, where the next one is dropped. -/
theorem startLatchesTheConfiguration : Obligations.StartLatchesTheConfiguration := by
  refine ⟨fun s en q hph => ?latch, fun s p rest hin hr hs hph => ?requested⟩
  case latch =>
    exact ⟨_, execStart_accepted ((acceptsStart_iff s).mpr hph), rfl, fun _ => rfl, rfl, rfl, rfl, rfl, Memory.load_nil,
      rfl, rfl, fun _ => rfl, rfl, rfl, rfl, rfl, fun _ _ => execStart_dropped rfl⟩
  case requested =>
    have ha : s.acceptsStart = true := (acceptsStart_iff s).mpr hph
    rw [step_start hin hr hs ha]
    exact (execStart_accepted (s := s.setInputs rest) ha).symm

/-- Quiet ports let the phase select the operation, and never stall. -/
theorem step_quiet {s : State} {rest : List Stimulus} (h : s.inputs = .step StepInput.quiet :: rest) :
    step s = exec (phaseInstr s.ph) (s.setInputs rest) := by
  rw [step_select h rfl, select_phase rfl rfl]

/-- Presenting an operation changes at most the phase and the stimuli. -/
theorem State.present_eq (s : State) (i : Instr) : ∃ ph l, s.present i = (s.setPh ph).setInputs l := by
  cases i
  case start en q =>
    by_cases ha : s.acceptsStart = true
    · exact ⟨s.ph, _, by rw [State.present, if_pos ha]; rfl⟩
    · exact ⟨.idle, _, by rw [State.present, if_neg ha]⟩
  all_goals exact ⟨_, _, rfl⟩

/-- A presented operation is the one the next step runs. -/
theorem step_present (s : State) (i : Instr) :
    step (s.present i) = exec i ((s.present i).setInputs s.inputs.tail) := by
  cases i
  case reset b => exact step_reset rfl rfl
  case start en q =>
    rw [step_select (p := StepInput.starting en q) rfl rfl, select_start rfl rfl]
    rfl
  case read a => exact step_sample rfl
  all_goals exact step_quiet rfl

/-- Settles O5: the decoded operation is presented to the next step. -/
theorem fetchWordRunsTheDecodedOperation : Obligations.FetchWordRunsTheDecodedOperation := by
  intro s nbits w i hdec
  have hplaced : s.withFetchWord nbits w = s.present i := by rw [State.withFetchWord, hdec]
  obtain ⟨ph, l, hpres⟩ := s.present_eq i
  refine ⟨(s.present i).setInputs s.inputs.tail, hplaced ▸ step_present s i, ?_⟩
  rw [hpres]
  exact ⟨rfl, rfl, rfl, rfl, rfl, rfl, rfl, rfl, rfl, rfl, rfl⟩

end Sys2Proof.Machine
end

section
/-! The seven items are the whole state (10_state.md R20, R33): only `SUM` could see more, the free values, and not where
the invariant holds. -/

namespace Sys2Proof.Machine

theorem sumWords32_congr {f g : Nat → Byte} {n : Nat} (h : ∀ k, k < 2 * n → f k = g k) :
    sumWords32 f n = sumWords32 g n := by
  induction n with
  | zero => rfl
  | succ n ih =>
    rw [sumWords32, sumWords32, ih fun k hk => h k (by omega), h (2 * n) (by omega), h (2 * n + 1) (by omega)]

/-- Below `WP` no byte is a free value, so states with one block see the same bytes. -/
theorem Inv.frameByte_congr {s u : State} (hi : Inv s) (hb : s.toBlock = u.toBlock) {k : Nat} (hk : k < s.wp.toNat) :
    s.frameByte k = u.frameByte k := by
  obtain ⟨-, -, -, -, -, -, hfb⟩ := State.sameRegisters_fields hb
  obtain ⟨b, hload⟩ := hi.exists_load hk
  rw [State.frameByte_of_load hload, State.frameByte_of_load (hfb ▸ hload)]

/-- The operation of the phase takes states with one block and one parameter value to states with one block. -/
theorem phaseOperation_toBlock_congr {s u t v : State} (hi : Inv s) (hb : s.toBlock = u.toBlock)
    (hp : s.params = u.params) (ht : phaseOperation s = .next t) (hv : phaseOperation u = .next v) :
    t.toBlock = v.toBlock := by
  have hsum : s.ph = .sum → sumWords32 s.frameByte s.params.nWords = sumWords32 u.frameByte s.params.nWords :=
    fun hph => sumWords32_congr fun k hk => hi.frameByte_congr hb (by rwa [hi.wp_of_phase hph, wpOf, padTarget_even])
  obtain ⟨b, p⟩ := s
  obtain ⟨b', p'⟩ := u
  obtain rfl : b = b' := hb
  obtain rfl : p = p' := hp
  cases hph : b.ph <;> simp only [phaseOperation, hph] at ht hv
  case sum =>
    cases ht
    cases hv
    simp only [State.setPh, State.setAcc, hsum hph]
  case' fold => by_cases hm : mustFold b.acc = true <;> simp only [execFold, hm] at ht hv
  all_goals
    cases ht
    cases hv
    rfl

theorem exists_inputs_of_head? {u : State} {x : Stimulus} {rest : List Stimulus}
    (h : (x :: rest).head? = u.inputs.head?) : ∃ rest', u.inputs = x :: rest' :=
  List.head?_eq_some_iff.mp h.symm

/-- Settles O47, by the six things a step can be: the same port values make both states take the same one. -/
theorem nextBlockDependsOnTheBlockAndThePorts : Obligations.NextBlockDependsOnTheBlockAndThePorts := by
  intro s u t v hi hb hp hin ht hv
  obtain ⟨hph, -⟩ := State.sameRegisters_fields hb
  have hbusy : u.busyO = s.busyO := by simp only [State.busyO, hph]
  rcases step_cases s with ⟨hs, h⟩ | ⟨a, rest, hs, h⟩ | ⟨p, rest, hs, hr, h⟩ | ⟨p, rest, hs, hr, hst, ha, h⟩ |
    ⟨p, rest, hs, hr, hw, h⟩ | ⟨p, rest, hs, hr, hd, hw, h⟩ <;> rw [h] at ht <;> rw [hs] at hin
  · rw [step_empty (List.head?_eq_none_iff.mp hin.symm)] at hv
    exact phaseOperation_toBlock_congr hi hb hp ht hv
  all_goals obtain ⟨rest', hu⟩ := exists_inputs_of_head? hin
  · rw [step_sample hu] at hv
    cases ht
    cases hv
    exact hb
  · rw [step_reset hu hr] at hv
    cases ht
    cases hv
    rfl
  · rw [step_start hu hr hst (by rwa [State.acceptsStart, hbusy])] at hv
    cases ht
    cases hv
    rfl
  · rw [step_stall hu (by rwa [State.stallsOn, hbusy])] at hv
    cases ht
    cases hv
    exact hb
  · rw [step_phase hu hr (by rwa [State.acceptsStart, hbusy]) (by rwa [State.stallsOn, hbusy])] at hv
    exact phaseOperation_toBlock_congr (u := u.setInputs rest') (hi.of_setInputs rest) hb hp ht hv

end Sys2Proof.Machine
end

section
/-! Which step touches which of the model's own fields (20_memory.md R63, 40_sequencer_and_host.md R122), and when the
frame becomes readable and ceases to be (20_memory.md R56, R60). -/

namespace Sys2Proof.Machine

/-- The operation of a phase reads the model's own fields and writes none of them. -/
theorem phaseOperation_sameModelFields {s t : State} (ht : phaseOperation s = .next t) : s.sameModelFields t := by
  obtain ⟨-, h⟩ | ⟨-, h⟩ | ⟨-, h⟩ | ⟨-, h⟩ | ⟨-, -, h⟩ | ⟨-, -, h⟩ | ⟨-, h⟩ | ⟨-, h⟩ := phaseOperation_cases s <;>
    rw [h] at ht <;> cases ht <;> simp [State.sameModelFields]

theorem exists_phaseOperation (s : State) : ∃ t, phaseOperation s = .next t := by
  obtain ⟨-, h⟩ | ⟨-, h⟩ | ⟨-, h⟩ | ⟨-, h⟩ | ⟨-, -, h⟩ | ⟨-, -, h⟩ | ⟨-, h⟩ | ⟨-, h⟩ := phaseOperation_cases s <;>
    exact ⟨_, h⟩

/-- Every step goes on (60_exceptions.md R210). -/
theorem exists_step (s : State) : ∃ t, step s = .next t := by
  obtain ⟨-, h⟩ | ⟨a, rest, -, h⟩ | ⟨p, rest, -, -, h⟩ | ⟨p, rest, -, -, -, -, h⟩ | ⟨p, rest, -, -, -, h⟩ |
    ⟨p, rest, -, -, -, -, h⟩ := step_cases s <;> rw [h]
  case inl => exact exists_phaseOperation s
  case inr.inr.inr.inr.inr => exact exists_phaseOperation (s.setInputs rest)
  all_goals exact ⟨_, rfl⟩

/-- Settles O26, by the six things a step can be: only a `READ` records, and only `RESET` and `START` forget the frame. -/
theorem parametersAndStimuliAreOnlyRead : Obligations.ParametersAndStimuliAreOnlyRead := by
  intro s t ht
  obtain ⟨hs, h⟩ | ⟨a, rest, hs, h⟩ | ⟨p, rest, hs, hr, h⟩ | ⟨p, rest, hs, -, hst, ha, h⟩ | ⟨p, rest, hs, -, -, h⟩ |
    ⟨p, rest, hs, -, -, -, h⟩ := step_cases s <;> rw [h] at ht <;> rw [hs]
  · obtain ⟨hp, hin, hl, -, hf⟩ := phaseOperation_sameModelFields ht
    exact ⟨hp.symm, hin.symm.trans hs, fun hne => absurd hl.symm hne, fun hne => absurd hf.symm hne⟩
  · cases ht
    exact ⟨rfl, rfl, fun _ => ⟨a, rest, rfl⟩, fun hne => absurd rfl hne⟩
  · cases ht
    exact ⟨rfl, rfl, fun hne => absurd rfl hne, fun _ => ⟨p, rest, rfl, .inl hr⟩⟩
  · cases ht
    exact ⟨rfl, rfl, fun hne => absurd rfl hne, fun _ => ⟨p, rest, rfl, .inr ⟨hst, (acceptsStart_iff s).mp ha⟩⟩⟩
  · cases ht
    exact ⟨rfl, rfl, fun hne => absurd rfl hne, fun hne => absurd rfl hne⟩
  · obtain ⟨hp, hin, hl, -, hf⟩ := phaseOperation_sameModelFields ht
    exact ⟨hp.symm, hin.symm, fun hne => absurd hl.symm hne, fun hne => absurd hf.symm hne⟩

theorem rdValidO_of_ph_ne_done {s : State} (hph : s.ph ≠ .done) (a : BitVec 6) : s.rdValidO a = false :=
  Bool.eq_false_iff.mpr fun hv => hph ((rdValidO_iff s a).mp hv).1

/-- Of the operations of the phases only `APPEND` enters `DONE`, with the finished frame's length in `WP`. -/
theorem phaseOperation_enters_done {s t : State} (ht : phaseOperation s = .next t) (hs : s.ph ≠ .done)
    (hd : t.ph = .done) : s.ph = .append ∧ t.wp.toNat = s.params.wireLen := by
  obtain ⟨-, h⟩ | ⟨-, h⟩ | ⟨-, h⟩ | ⟨-, h⟩ | ⟨-, -, h⟩ | ⟨-, -, h⟩ | ⟨-, h⟩ | ⟨hph, h⟩ := phaseOperation_cases s <;>
    rw [h] at ht <;> cases ht
  case inl => exact absurd hd hs
  case inr.inr.inr.inr.inr.inr.inr =>
    exact ⟨hph, (BitVec.toNat_ofNat _ _).trans (Nat.mod_eq_of_lt (wireLen_lt s.params))⟩
  all_goals cases hd

/-- A step enters `DONE` by the operation of `APPEND` only. -/
theorem step_enters_done {s t : State} (ht : step s = .next t) (hs : s.ph ≠ .done) (hd : t.ph = .done) :
    s.ph = .append ∧ t.wp.toNat = s.params.wireLen := by
  obtain ⟨-, h⟩ | ⟨a, rest, -, h⟩ | ⟨p, rest, -, -, h⟩ | ⟨p, rest, -, -, -, -, h⟩ | ⟨p, rest, -, -, -, h⟩ |
    ⟨p, rest, -, -, -, -, h⟩ := step_cases s <;> rw [h] at ht
  · exact phaseOperation_enters_done ht hs hd
  · cases ht; exact absurd hd hs
  · cases ht; cases hd
  · cases ht; cases hd
  · cases ht; exact absurd hd hs
  · exact phaseOperation_enters_done (s := s.setInputs rest) ht hs hd

/-- Out of `DONE`, `RESET` goes to `IDLE` and `START` to `BUILD`. -/
theorem step_request_leaves_done {s t : State} {p : StepInput} {rest : List Stimulus} (hph : s.ph = .done)
    (hin : s.inputs = .step p :: rest) (hreq : p.rst = true ∨ p.start = true) (ht : step s = .next t) :
    t.ph ≠ .done := by
  by_cases hr : p.rst = true
  · rw [step_reset hin hr] at ht
    cases ht
    exact fun h => nomatch h
  · rw [step_start hin (Bool.eq_false_iff.mpr hr) (hreq.resolve_left hr) ((acceptsStart_iff s).mpr (.inr hph))] at ht
    cases ht
    exact fun h => nomatch h

/-- Settles O30: a read is valid in `DONE` only, which `APPEND` alone enters and a request leaves; there the invariant
says that the bytes are the frame's. -/
theorem frameIsPublishedAtDone : Obligations.FrameIsPublishedAtDone := by
  refine ⟨fun s t a ht hs hv => ?rises, fun s t p rest a hph hin hreq ht => ?falls, fun s a b ha hb => ?together,
    fun s a hi hv => hi.wireFrame_getElem?_of_valid hv⟩
  case rises =>
    obtain ⟨hd, ha⟩ := (rdValidO_iff t a).mp hv
    obtain ⟨hp, -⟩ := parametersAndStimuliAreOnlyRead s t ht
    refine step_enters_done ht (fun hph => ?_) hd
    exact Bool.eq_false_iff.mp hs ((rdValidO_iff s a).mpr ⟨hph, hp ▸ ha⟩)
  case falls => exact rdValidO_of_ph_ne_done (step_request_leaves_done hph hin hreq ht) a
  case together => simp only [State.rdValidO, ha, hb]

/-- While nothing is requested, any number of steps from `DONE` leaves the block and the parameters as they are. -/
theorem runSteps_of_done {s : State} (hph : s.ph = .done) (hreq : ∀ x ∈ s.inputs, x.noRequest = true) (k : Nat) :
    ∃ t, runSteps k s = .next t ∧ s.sameRegisters t ∧ t.params = s.params := by
  induction k generalizing s with
  | zero => exact ⟨s, rfl, rfl, rfl⟩
  | succ k ih =>
    obtain ⟨u, hu⟩ := exists_step s
    rcases step_of_done hph hu with ⟨p, rest, hin, hp⟩ | ⟨hb, hpar⟩
    · have hnone : p.rst = false ∧ p.start = false := by
        simpa [Stimulus.noRequest] using hreq (.step p) (by simp [hin])
      simp [hnone] at hp
    · obtain ⟨-, hin, -⟩ := parametersAndStimuliAreOnlyRead s u hu
      have hphu : u.ph = .done := (congrArg Block.ph hb).trans hph
      obtain ⟨t, ht, hbt, hpt⟩ := ih hphu fun x hx => hreq x (List.mem_of_mem_tail (hin ▸ hx))
      exact ⟨t, (runSteps_succ hu).trans ht, State.sameRegisters_trans hb.symm hbt, hpt.trans hpar⟩

/-- Settles O32: the block stays as it is, and a valid read of it shows the frame. -/
theorem oneBuildServesEveryPass : Obligations.OneBuildServesEveryPass := by
  intro s k hi hph hreq
  obtain ⟨w, hw, -⟩ := hi.load_of_done hph
  obtain ⟨t, ht, hb, hp⟩ := runSteps_of_done hph hreq k
  obtain ⟨hpht, hen, hq, -⟩ := State.sameRegisters_fields hb
  refine ⟨t, w, ht, hb, hw, fun a rest hin ha => ?_⟩
  have hv : t.rdValidO a = true := (rdValidO_iff t a).mpr ⟨hpht ▸ hph, hp ▸ ha⟩
  obtain ⟨w', hw', hbyte⟩ := (hi.congr hb hp.symm).wireFrame_getElem?_of_valid hv
  obtain rfl : w = w' := by rw [hp, ← hen, ← hq, hw] at hw'; exact Option.some.inj hw'
  refine ⟨_, t.rdDataO a, (step_sample hin).trans (execRead_eq a (t.setInputs rest)), hbyte, ?_⟩
  exact congrArg (fun v => some (ReadSample.mk a v (t.rdDataO a))) hv

end Sys2Proof.Machine
end

section
/-! `SUM` over the buffer's bytes (20_memory.md R52, 42_checksum.md R161). -/

namespace Sys2Proof.Machine

theorem nWords_lt (p : Config.Params) : p.nWords < 2 ^ 6 := by
  have hlt := padTarget_lt p
  rw [padTarget_even] at hlt
  omega

/-- The exact sum in bytes: each even byte counts once, each odd one 256 times. -/
theorem sumWords32_toNat_bytes (f : Nat → Byte) (p : Config.Params) : (sumWords32 f p.nWords).toNat =
    ((List.range p.nWords).map fun k => (f (2 * k)).toNat + 256 * (f (2 * k + 1)).toNat).sum := by
  have hlt := nWords_lt p
  simp only [(sumWords32_toNat f p.nWords (by omega)).1, wordOf_toNat]

/-- The accumulator is the left fold over the words in rising order. -/
theorem sumWords32_eq_foldl (f : Nat → Byte) (n : Nat) : sumWords32 f n =
    (List.range n).foldl (fun acc k => acc + (wordOf (f (2 * k)) (f (2 * k + 1))).setWidth 32) 0#32 := by
  induction n with
  | zero => rfl
  | succ n ih => rw [sumWords32, ih, List.range_succ, List.foldl_append]; rfl

/-- Settles O18: `SUM` puts `sumWords32` of the bytes into `ACC`, which is exact, is a sum in a commutative ring, and
depends on the bytes below `PAD_TARGET` only. -/
theorem sumAddsTheWordsExactly : Obligations.SumAddsTheWordsExactly := by
  refine fun s => ⟨_, execSum_eq s, sumWords32_toNat_bytes s.frameByte s.params, fun f hf => ?values,
    fun l hl => ?order, rfl, rfl, rfl, rfl, rfl, rfl, rfl, rfl, rfl, rfl, rfl⟩
  case values =>
    have hsum : sumWords32 s.frameByte s.params.nWords = sumWords32 f s.params.nWords :=
      sumWords32_congr fun k hk => State.frameByte_of_load (hf k (by rwa [padTarget_even]))
    exact (congrArg BitVec.toNat hsum).trans (sumWords32_toNat_bytes f s.params)
  case order =>
    have hcomm : ∀ acc a b : BitVec 32, acc + a + b = acc + b + a := add_right_comm
    exact (sumWords32_eq_foldl s.frameByte s.params.nWords).trans
      (hl.foldl_eq' (fun x _ y _ acc => hcomm acc _ _) 0#32).symm

end Sys2Proof.Machine
end

section
/-! The frame byte by byte (20_memory.md R57, 30_encoding.md R80 to R89, 44_wireframe.md R192). -/

namespace Sys2Proof.Machine

theorem frameFields_getElem?_quantum (en : BitVec 8) (q : Quanta) (i : Fin 8) :
    (frameFields en q)[18 + 2 * i.val]? = some (q[i].extractLsb' 8 8) ∧
      (frameFields en q)[19 + 2 * i.val]? = some (q[i].extractLsb' 0 8) := by
  fin_cases i <;> exact ⟨rfl, rfl⟩

section
variable (p : Config.Params) (en : BitVec 8) (q : Quanta)

/-- The first 34 bytes of a frame are the frame fields. -/
theorem frame_getElem?_of_lt {k : Nat} (hk : k < 34) (tr : List Byte) :
    (paddedFields p en q ++ tr)[k]? = (frameFields en q)[k]? := by
  rw [frame_getElem?_fields (by rw [padTarget_eq]; omega)]
  exact List.getElem?_append_left hk

/-- The `PAD_LEN` bytes from 34 are zero. -/
theorem frame_getElem?_pad {k : Nat} (hk : 34 ≤ k) (hk' : k < 34 + p.padLen) (tr : List Byte) :
    (paddedFields p en q ++ tr)[k]? = some 0x00#8 := by
  rw [frame_getElem?_fields (by rwa [padTarget_eq]), paddedFields, padded, List.getElem?_append_right hk,
    frameFields_length]
  exact List.getElem?_replicate_of_lt (by omega)

/-- From `PAD_TARGET` on the frame is the trailer. -/
theorem frame_getElem?_trailer (j : Nat) (tr : List Byte) :
    (paddedFields p en q ++ tr)[34 + p.padLen + j]? = tr[j]? := by
  rw [← padTarget_eq, List.getElem?_append_right (by rw [paddedFields_length]; omega), paddedFields_length,
    Nat.add_sub_cancel_left]

end

/-- Settles O37: the frame is the frame fields, the padding and the trailer, in this order. -/
theorem wireFrameIsTheWireFormatTable : Obligations.WireFrameIsTheWireFormatTable := by
  intro p en q
  have h35 : 35 + p.padLen = 34 + p.padLen + 1 := by omega
  obtain ⟨n, hn⟩ := exists_wordSum_paddedFields p en q
  have hc := checksumOf_of_wordSum hn
  generalize ~~~ (BitVec.ofNat 16 (foldAll n)) = c at hc
  refine ⟨_, c, wireFrame_of_checksum hc, hc, frame_length p en q c, rfl, ?_, ?_, fun i => ⟨?_, ?_⟩, ?pad, ?low, ?high⟩
  · exact frame_getElem?_of_lt p en q (by decide) _
  · exact frame_getElem?_of_lt p en q (by decide) _
  · exact (frame_getElem?_of_lt p en q (by omega) _).trans (frameFields_getElem?_quantum en q i).1
  · exact (frame_getElem?_of_lt p en q (by omega) _).trans (frameFields_getElem?_quantum en q i).2
  case pad => exact fun k hk hk' => frame_getElem?_pad p en q hk hk' _
  case low =>
    intro ho
    rw [ho, h35]
    exact ⟨frame_getElem?_trailer p en q 0 _, frame_getElem?_trailer p en q 1 _⟩
  case high =>
    intro ho
    rw [ho, h35]
    exact ⟨frame_getElem?_trailer p en q 0 _, frame_getElem?_trailer p en q 1 _⟩

end Sys2Proof.Machine
end

section
/-! The codes of the operations (30_encoding.md R91 to R94): the packed operand is the concatenation of its fields, and
what the decoder answers is said once, format by format. -/

namespace Sys2Proof

/-! ## The operand of `START` -/

/-- Packing puts the fields side by side, `enable_i` first (30_encoding.md R92). -/
theorem packOperand_eq_append (en : BitVec 8) (q : Quanta) :
    packOperand en q = en ++ q[0] ++ q[1] ++ q[2] ++ q[3] ++ q[4] ++ q[5] ++ q[6] ++ q[7] := by
  rw [← BitVec.setWidth_eq (en ++ q[0] ++ q[1] ++ q[2] ++ q[3] ++ q[4] ++ q[5] ++ q[6] ++ q[7])]
  iterate 8 rw [BitVec.setWidth_append_eq_shiftLeft_setWidth_or]
  simp only [packOperand, BitVec.shiftLeft_or_distrib, ← BitVec.shiftLeft_add, Nat.reduceAdd]

@[simp] theorem unpackEnable_packOperand (en : BitVec 8) (q : Quanta) : unpackEnable (packOperand en q) = en := by
  rw [unpackEnable, packOperand_eq_append]
  iterate 8 rw [BitVec.extractLsb'_append_eq_of_le (by decide)]
  exact BitVec.extractLsb'_eq_self

/-- Each quantum is found by dropping the fields below it. -/
@[simp] theorem unpackQuanta_packOperand (en : BitVec 8) (q : Quanta) : unpackQuanta (packOperand en q) = q := by
  rw [unpackQuanta, packOperand_eq_append]
  apply Vector.ext
  intro i hi
  interval_cases i
  all_goals
    change BitVec.extractLsb' _ 16 _ = _
    repeat rw [BitVec.extractLsb'_append_eq_of_le (by decide)]
    exact BitVec.extractLsb'_append_eq_right

@[simp] theorem packOperand_unpack (o : BitVec 136) : packOperand (unpackEnable o) (unpackQuanta o) = o := by
  rw [packOperand_eq_append]
  change o.extractLsb' 128 8 ++ o.extractLsb' 112 16 ++ o.extractLsb' 96 16 ++ o.extractLsb' 80 16 ++
    o.extractLsb' 64 16 ++ o.extractLsb' 48 16 ++ o.extractLsb' 32 16 ++ o.extractLsb' 16 16 ++ o.extractLsb' 0 16 = o
  iterate 8 rw [BitVec.extractLsb'_append_extractLsb'_eq_extractLsb' (by rfl)]
  exact BitVec.extractLsb'_eq_self

theorem unpackQuanta_getElem (o : BitVec 136) (i : Fin 8) :
    (unpackQuanta o)[i] = o.extractLsb' (112 - 16 * i.val) 16 := by
  fin_cases i <;> rfl

/-! ## What a code decodes to -/

theorem hostVector_cases (hv : BitVec 2) : hv.getLsbD 1 = true ∨ hv = 0b01#2 ∨ hv = 0b00#2 := by
  revert hv
  decide

theorem decode_host_reset {hv : BitVec 2} (h : hv.getLsbD 1 = true) (o : BitVec 136) :
    decode (.host hv o) = .ok (.reset (hv.getLsbD 0)) := by
  simp [decode, decodeRequest, h]

theorem decode_host_start (o : BitVec 136) :
    decode (.host 0b01#2 o) = .ok (.start (unpackEnable o) (unpackQuanta o)) := rfl

theorem decode_host_none (o : BitVec 136) : decode (.host 0b00#2 o) = .error .noRequest := rfl

/-- The five things a code can be, and what each decodes to. -/
theorem decode_cases (c : Code) :
    (∃ hv o, c = .host hv o ∧ hv.getLsbD 1 = true ∧ decode c = .ok (.reset (hv.getLsbD 0))) ∨
    (∃ o, c = .host 0b01#2 o ∧ decode c = .ok (.start (unpackEnable o) (unpackQuanta o))) ∨
    (∃ o, c = .host 0b00#2 o ∧ decode c = .error .noRequest) ∨
    (∃ a, c = .rdPort a ∧ decode c = .ok (.read a)) ∨
    (∃ ph, c = .phase ph ∧ decode c = .ok (decodePhase ph)) := by
  cases c with
  | host hv o =>
    rcases hostVector_cases hv with h | rfl | rfl
    · exact .inl ⟨hv, o, rfl, h, decode_host_reset h o⟩
    · exact .inr (.inl ⟨o, rfl, decode_host_start o⟩)
    · exact .inr (.inr (.inl ⟨o, rfl, decode_host_none o⟩))
  | rdPort a => exact .inr (.inr (.inr (.inl ⟨a, rfl, rfl⟩)))
  | phase ph => exact .inr (.inr (.inr (.inr ⟨ph, rfl, rfl⟩)))

/-! ## Decode and encode -/

/-- Settles O6: unpacking a packed operand gives its fields back; every other code is that of one operation. -/
theorem decodeOfEncodeIsTheOperation : Obligations.DecodeOfEncodeIsTheOperation := by
  rintro i -
  cases i
  case reset s => cases s <;> rfl
  case start en q => rw [encode, decode_host_start, unpackEnable_packOperand, unpackQuanta_packOperand]
  all_goals rfl

theorem encode_reset_of_getLsbD {hv : BitVec 2} (h : hv.getLsbD 1 = true) :
    encode (.reset (hv.getLsbD 0)) = .host hv 0#136 := by
  revert hv
  decide

theorem encode_decodePhase (ph : BitVec 3) : encode (decodePhase ph) = .phase ph := by
  revert ph
  decide

/-- Settles O7, by what the code decodes to: a canonical `RESET` has a zero operand, and packing an unpacked operand gives
it back. -/
theorem encodeOfDecodeIsTheCanonicalCode : Obligations.EncodeOfDecodeIsTheCanonicalCode := by
  intro c i hcan hdec
  rcases decode_cases c with ⟨hv, o, rfl, h, hd⟩ | ⟨o, rfl, hd⟩ | ⟨o, rfl, hd⟩ | ⟨a, rfl, hd⟩ | ⟨ph, rfl, hd⟩
  all_goals cases hd.symm.trans hdec
  case inl =>
    have ho : o = 0#136 := by simpa [Code.canonical, h] using hcan
    rw [ho, encode_reset_of_getLsbD h]
  case inr.inl => rw [encode, packOperand_unpack]
  case inr.inr.inr.inl => rfl
  case inr.inr.inr.inr => exact encode_decodePhase ph

/-- Settles O8: the decoder's answers for a host vector, and the only code among the five kinds that has none. -/
theorem hostVectorDecodesAsStated : Obligations.HostVectorDecodesAsStated := by
  refine ⟨fun hv o h => decode_host_reset h o,
    fun o => ⟨unpackQuanta o, decode_host_start o, unpackQuanta_getElem o⟩, fun c e => ⟨fun herr => ?_, ?_⟩⟩
  · rcases decode_cases c with ⟨_, _, _, _, hd⟩ | ⟨_, _, hd⟩ | ⟨o, hc, hd⟩ | ⟨_, _, hd⟩ | ⟨_, _, hd⟩
    all_goals cases hd.symm.trans herr
    exact ⟨rfl, o, hc⟩
  · rintro ⟨rfl, o, rfl⟩
    exact decode_host_none o

/-! ## The rows of opcode_table.json -/

theorem Row.matches_iff (r : Row) (c : Code) :
    r.matches c = true ↔ c.word.1 = r.format ∧ c.word.2 &&& r.mask = r.value := by
  simp [Row.matches]

/-- With `hv[1]` set only the mask of `RESET` gives its match: that of `START` keeps both bits. -/
theorem matches_host_reset_iff {hv : BitVec 2} (h : hv.getLsbD 1 = true) (o : BitVec 136) (s : Bool) (j : Instr) :
    j.row.matches (.host hv o) = true ↔ j.row = (Instr.reset s).row := by
  rw [Row.matches_iff]
  cases j
  all_goals
    simp only [Code.word, Instr.row]
    revert hv
    decide

theorem matches_host_start_iff (o : BitVec 136) (en : BitVec 8) (q : Quanta) (j : Instr) :
    j.row.matches (.host 0b01#2 o) = true ↔ j.row = (Instr.start en q).row := by
  rw [Row.matches_iff]
  cases j
  all_goals
    simp only [Code.word, Instr.row]
    decide

/-- The row of `READ` is the only one of its format, and it fixes no bit. -/
theorem matches_rdPort_iff (a b : BitVec 6) (j : Instr) :
    j.row.matches (.rdPort a) = true ↔ j.row = (Instr.read b).row := by
  rw [Row.matches_iff]
  cases j
  all_goals simp [Code.word, Instr.row]

/-- The mask of a phase row keeps all three bits, so each phase code has a row of its own. -/
theorem matches_phase_iff (ph : BitVec 3) (j : Instr) :
    j.row.matches (.phase ph) = true ↔ j.row = (decodePhase ph).row := by
  rw [Row.matches_iff]
  cases j
  all_goals
    simp only [Code.word, Instr.row]
    revert ph
    decide

/-- The rows that fit a code are the decoded operation's. -/
theorem matches_iff_of_decode {c : Code} {i : Instr} (hdec : decode c = .ok i) (j : Instr) :
    j.row.matches c = true ↔ j.row = i.row := by
  rcases decode_cases c with ⟨hv, o, rfl, h, hd⟩ | ⟨o, rfl, hd⟩ | ⟨o, rfl, hd⟩ | ⟨a, rfl, hd⟩ | ⟨ph, rfl, hd⟩
  all_goals cases hd.symm.trans hdec
  case inl => exact matches_host_reset_iff h o _ j
  case inr.inl => exact matches_host_start_iff o _ _ j
  case inr.inr.inr.inl => exact matches_rdPort_iff a a j
  case inr.inr.inr.inr => exact matches_phase_iff ph j

/-- Settles O9: the rows that fit a code are those equal to the decoded operation's row. -/
theorem decodedOperationIsTheOnlyMatchingRow : Obligations.DecodedOperationIsTheOnlyMatchingRow :=
  fun _ i hdec => ⟨(matches_iff_of_decode hdec i).mpr rfl, fun j => (matches_iff_of_decode hdec j).mp⟩

/-- Settles O10, by running the decoder on each word. -/
theorem writtenOutWordsDecode : Obligations.WrittenOutWordsDecode := by
  unfold Obligations.WrittenOutWordsDecode
  decide

end Sys2Proof
end

section
/-! The operation of a step is the one the decoder reads from the code that selects it (30_encoding.md R92, R93,
40_sequencer_and_host.md R110). -/

namespace Sys2Proof.Machine

/-- The decoder reads from the selecting code the operation that `select` chooses. -/
theorem decode_selectCode (p : StepInput) (ph : Phase) : decode (selectCode p ph) = .ok (select p ph) := by
  rcases hostVector_cases p.hv with h | h | h
  · have hne : p.hv ≠ 0#2 := fun h0 => by simp [h0] at h
    rw [selectCode, if_neg hne, decode_host_reset h, select, decodeRequest, if_pos h]
  · have hne : p.hv ≠ 0#2 := by simp [h]
    rw [selectCode, if_neg hne, h, decode_host_start, unpackEnable_packOperand, unpackQuanta_packOperand, select, h]
    rfl
  · rw [selectCode, if_pos h, select, h]
    rfl

/-- Settles O4, stimulus by stimulus. -/
theorem stepRunsTheDecodedOperation : Obligations.StepRunsTheDecodedOperation := by
  refine ⟨fun s p rest i hin hw hdec => ?request, fun s a rest i hin hdec => ?sample, fun s i hin hdec => ?empty,
    fun p ph => ⟨select p ph, decode_selectCode p ph⟩⟩
  case request =>
    cases (decode_selectCode p s.ph).symm.trans hdec
    exact step_select hin hw
  case sample =>
    cases hdec
    exact step_sample hin
  case empty =>
    cases hdec
    exact (step_empty hin).trans (exec_phaseInstr s).symm

end Sys2Proof.Machine
end

section
/-! The sequencer (40_sequencer_and_host.md R110 to R120): which operation a step performs, what it does to the phase,
and what a stall and a dropped request leave alone. -/

namespace Sys2Proof.Machine

theorem busyO_eq_false_iff (s : State) : s.busyO = false ↔ s.ph = .idle ∨ s.ph = .done := by
  cases h : s.ph <;> simp [State.busyO, h]

theorem acceptsStart_of_busy {s : State} (hb : s.busyO = true) : s.acceptsStart = false := by
  simp [State.acceptsStart, hb]

/-- A step with `rst_i` = 1 is `RESET`, whatever the phase, `start_i` and the stall flag are. -/
theorem step_eq_exec_reset {s : State} {p : StepInput} {rest : List Stimulus} (hin : s.inputs = .step p :: rest)
    (hr : p.rst = true) : step s = exec (.reset p.start) (s.setInputs rest) :=
  step_reset hin hr

/-- In a busy phase without `RESET` only the stall flag of the ports matters. -/
theorem step_of_busy {s : State} {p : StepInput} {rest : List Stimulus} (hb : s.busyO = true)
    (hin : s.inputs = .step p :: rest) (hr : p.rst = false) :
    step s = if p.stall then .next (s.setInputs rest) else phaseOperation (s.setInputs rest) := by
  by_cases hw : p.stall = true
  · rw [if_pos hw]
    exact step_stall hin (by simp [State.stallsOn, hw, hb, hr])
  · rw [if_neg hw]
    exact step_phase hin hr (fun _ => acceptsStart_of_busy hb) (by simp [State.stallsOn, hw])

/-- Outside the busy phases the stall flag of the ports is without effect. -/
theorem step_of_not_busy {s : State} {p : StepInput} {rest : List Stimulus} (hb : s.busyO = false)
    (hin : s.inputs = .step p :: rest) : step s = exec (select p s.ph) (s.setInputs rest) :=
  step_select hin (by simp [State.stallsOn, hb])

/-- The operation of the phase goes to the stated successor (40_sequencer_and_host.md R117). -/
theorem phaseOperation_ph {s t : State} (ht : phaseOperation s = .next t) : t.ph = nextPhase s := by
  obtain ⟨hph | hph, h⟩ | ⟨hph, h⟩ | ⟨hph, h⟩ | ⟨hph, h⟩ | ⟨hph, ha, h⟩ | ⟨hph, ha, h⟩ | ⟨hph, h⟩ | ⟨hph, h⟩ :=
    phaseOperation_cases s <;> rw [h] at ht <;> cases ht <;> simp only [nextPhase, hph, State.setPh_ph]
  · rw [if_pos ha]
  · rw [if_neg (by omega)]

/-- `ACC[31:16]` is the quotient by `0x10000`, so it is 0 exactly up to `0xFFFF` (42_checksum.md R170). -/
theorem highHalf_ne_zero_iff (acc : BitVec 32) : acc.extractLsb' 16 16 ≠ 0#16 ↔ 0xFFFF < acc.toNat := by
  have hlt := acc.isLt
  rw [ne_eq, ← BitVec.toNat_inj, BitVec.extractLsb'_toNat, Nat.shiftRight_eq_div_pow, BitVec.toNat_ofNat]
  omega

/-- Settles O11: `RESET` enters reset in every state, and its registers do not depend on the state it is taken in. -/
theorem resetPutsEveryRegisterAtItsResetValue : Obligations.ResetPutsEveryRegisterAtItsResetValue :=
  fun s _ => ⟨⟨_, execReset_eq s, rfl, rfl, zeroQuanta_getElem, rfl, rfl, rfl, Memory.load_nil, rfl, rfl, fun _ => rfl,
    rfl, rfl, rfl, rfl, fun _ => ⟨_, execReset_eq s.enterReset, rfl⟩⟩, fun _ _ => step_eq_exec_reset⟩

/-- Settles O13: in a busy phase a step without `RESET` is determined by the stall flag. -/
theorem startWhileBusyIsDropped : Obligations.StartWhileBusyIsDropped := by
  refine ⟨fun s p p' rest hb hin hr hr' hw => ⟨?ports, ?goesOn⟩, fun s en q hb => ?operation⟩
  case ports =>
    rw [step_of_busy hb hin hr, step_of_busy (s := s.setInputs (.step p' :: rest)) hb rfl hr', hw]
    rfl
  case goesOn =>
    obtain ⟨t, ht⟩ := exists_step s
    obtain ⟨-, hint, -⟩ := parametersAndStimuliAreOnlyRead s t ht
    exact ⟨t, ht, by rw [hint, hin, List.tail_cons]⟩
  case operation => exact (execStart_dropped (acceptsStart_of_busy hb)).trans (exec_phaseInstr s).symm

/-- Settles O22: `RESET` first, then an acceptable `START`, then the operation of the phase. -/
theorem stepPriorityIsResetStartPhase : Obligations.StepPriorityIsResetStartPhase := by
  refine ⟨fun s p rest hin => ⟨step_eq_exec_reset hin, startLatchesTheConfiguration.2 s p rest hin, ?phase⟩,
    fun s a rest hin => ⟨_, step_sample hin, rfl, rfl⟩, rfl, rfl, rfl, rfl, rfl, rfl, rfl, rfl⟩
  case phase =>
    intro hr hno hw
    have hdrop : p.start = true → s.acceptsStart = false := fun hs =>
      Bool.eq_false_iff.mpr fun ha => hno ⟨hs, (acceptsStart_iff s).mp ha⟩
    rw [step_phase hin hr hdrop (by simp [State.stallsOn, hw])]
    exact (exec_phaseInstr (s.setInputs rest)).symm

/-- Settles O23, by the six things a step can be; without stimuli the ports are quiet and request nothing. -/
theorem phaseOrderIsTheStatedOne : Obligations.PhaseOrderIsTheStatedOne := by
  refine ⟨fun s t ht => ?_, highHalf_ne_zero_iff⟩
  obtain ⟨hs, h⟩ | ⟨a, rest, hs, h⟩ | ⟨p, rest, hs, hr, h⟩ | ⟨p, rest, hs, hr, hst, ha, h⟩ |
    ⟨p, rest, hs, hr, hw, h⟩ | ⟨p, rest, hs, hr, hd, hw, h⟩ := step_cases s <;> rw [h] at ht
  · refine .inr (.inr (.inr (.inr ⟨fun p rest hin => ?_, fun a rest hin => ?_, phaseOperation_ph ht⟩)))
    · simp [hs] at hin
    · simp [hs] at hin
  · cases ht
    exact .inl ⟨a, rest, hs, rfl⟩
  · cases ht
    exact .inr (.inl ⟨p, rest, hs, hr, rfl⟩)
  · cases ht
    exact .inr (.inr (.inl ⟨p, rest, hs, hr, hst, (acceptsStart_iff s).mp ha, rfl⟩))
  · cases ht
    obtain ⟨⟨hstall, hb⟩, -⟩ : (p.stall = true ∧ s.busyO = true) ∧ p.rst = false := by
      simpa [State.stallsOn] using hw
    exact .inr (.inr (.inr (.inl ⟨p, rest, hs, hr, hstall, hb, rfl⟩)))
  · refine .inr (.inr (.inr (.inr ⟨fun p' rest' hin => ?_, fun a rest' hin => ?_, ?_⟩)))
    · obtain ⟨rfl, -⟩ : p = p' ∧ rest = rest' := by simpa [hs] using hin
      refine ⟨hr, fun hst => by simpa [State.acceptsStart] using hd hst, fun hstall => ?_⟩
      simpa [State.stallsOn, hstall, hr] using hw
    · simp [hs] at hin
    · exact phaseOperation_ph (s := s.setInputs rest) ht

/-- Settles O24: the stall flag matters in a busy phase without `RESET` only. -/
theorem stallChangesNothing : Obligations.StallChangesNothing := by
  refine fun s p rest hin hw => ⟨fun hb hr => ?busy, step_eq_exec_reset hin, fun hb => ?waiting⟩
  case busy => rw [step_of_busy hb hin hr, if_pos hw]
  case waiting =>
    rw [step_of_not_busy hb hin,
      step_of_not_busy (s := s.setInputs (.step { p with stall := false } :: rest)) hb rfl]
    rfl

end Sys2Proof.Machine
end

section
/-! The waiting phases `IDLE` and `DONE` (40_sequencer_and_host.md R114, R115). -/

namespace Sys2Proof.Machine

theorem phaseOperation_of_waiting {s : State} (hph : s.ph = .idle ∨ s.ph = .done) : phaseOperation s = .next s := by
  rcases hph with hph | hph <;> simp only [phaseOperation, hph, execIdle, execDone]

/-- A step without a request leaves the block of a waiting phase as it is and uses up one stimulus. -/
theorem step_of_waiting {s : State} (hph : s.ph = .idle ∨ s.ph = .done)
    (hreq : ∀ x ∈ s.inputs, x.noRequest = true) :
    ∃ t, step s = .next t ∧ s.sameRegisters t ∧ t.inputs = s.inputs.tail := by
  rcases hin : s.inputs with _ | ⟨p | a, rest⟩
  · exact ⟨s, (step_empty hin).trans (phaseOperation_of_waiting hph), rfl, hin⟩
  · obtain ⟨hr, hs⟩ : p.rst = false ∧ p.start = false := by
      simpa [Stimulus.noRequest] using hreq (.step p) (by simp [hin])
    have hb : s.busyO = false := (busyO_eq_false_iff s).mpr hph
    refine ⟨s.setInputs rest, ?_, rfl, rfl⟩
    rw [step_of_not_busy hb hin, select_phase hr hs]
    exact (exec_phaseInstr (s.setInputs rest)).trans (phaseOperation_of_waiting (s := s.setInputs rest) hph)
  · exact ⟨_, step_sample hin, rfl, rfl⟩

/-- While nothing is requested, any number of steps leaves the block of a waiting phase as it is. -/
theorem runSteps_of_waiting {s : State} (hph : s.ph = .idle ∨ s.ph = .done)
    (hreq : ∀ x ∈ s.inputs, x.noRequest = true) (k : Nat) : ∃ t, runSteps k s = .next t ∧ s.sameRegisters t := by
  induction k generalizing s with
  | zero => exact ⟨s, rfl, rfl⟩
  | succ k ih =>
    obtain ⟨u, hu, hsu, hin⟩ := step_of_waiting hph hreq
    obtain ⟨hphu, -⟩ := State.sameRegisters_fields hsu
    obtain ⟨t, ht, hut⟩ := ih (hphu ▸ hph) fun x hx => hreq x (List.mem_of_mem_tail (hin ▸ hx))
    exact ⟨t, (runSteps_succ hu).trans ht, State.sameRegisters_trans hsu hut⟩

/-- Settles O15: the block stays as it is, and the status outputs are functions of its phase. -/
theorem waitingPhasesHold : Obligations.WaitingPhasesHold := by
  refine ⟨fun s => ⟨rfl, rfl⟩, fun s k hph hreq => ?_⟩
  obtain ⟨t, ht, hst⟩ := runSteps_of_waiting hph hreq k
  obtain ⟨hpht, -⟩ := State.sameRegisters_fields hst
  refine ⟨t, ht, hst, (busyO_eq_false_iff t).mpr (hpht ▸ hph), hpht ▸ doneO_iff t, fun hidle => ?_⟩
  exact rdValidO_of_ph_ne_done (by simp [← hpht, hidle])

end Sys2Proof.Machine
end

section
/-! The status outputs (40_sequencer_and_host.md R121). -/

namespace Sys2Proof.Machine

/-- A 16-bit value is its low byte and 256 times its high byte. -/
theorem toNat_bytes (c : Half) : (c.extractLsb' 0 8).toNat + 256 * (c.extractLsb' 8 8).toNat = c.toNat := by
  have hlt := c.isLt
  simp only [BitVec.extractLsb'_toNat, Nat.shiftRight_eq_div_pow]
  omega

namespace Inv

variable {s : State} (hi : Inv s)
include hi

/-- From `PAD_TARGET` on, the bytes below it are the padded frame fields. -/
theorem memRead_paddedFields (hwp : s.params.padTarget ≤ s.wp.toNat) :
    s.memRead 0 s.params.padTarget = paddedFields s.params s.en s.q := by
  rw [← paddedFields_length s.params s.en s.q]
  refine State.memRead_eq_of_load fun k hk => ?_
  rw [paddedFields_length] at hk
  rw [Nat.zero_add, hi.frameSoFar k (by omega), frame_getElem?_fields hk]

/-- Once `CPL` has been performed, `CSUM` is the checksum of the bytes below `PAD_TARGET`. -/
theorem checksumOf_memRead (hph : s.ph = .append ∨ s.ph = .done) :
    checksumOf (s.memRead 0 s.params.padTarget) = some s.csum := by
  have hwp := hi.writePointer
  have hcsum := hi.checksum
  rcases hph with hph | hph <;> rw [hph] at hwp hcsum
  · rwa [hi.memRead_paddedFields hwp.ge]
  · rwa [hi.memRead_paddedFields (hwp.trans (wireLen_eq s.params) ▸ Nat.le_add_right _ 2)]

/-- Before `CPL` has been performed, `CSUM` is 0. -/
theorem csum_eq_zero (happend : s.ph ≠ .append) (hdone : s.ph ≠ .done) : s.csum = 0x0000#16 := by
  have hcsum := hi.checksum
  cases hph : s.ph
  case append => exact absurd hph happend
  case done => exact absurd hph hdone
  all_goals rwa [hph] at hcsum

/-- In `DONE` the trailer stands at `PAD_TARGET`. -/
theorem frameByte_trailer (hph : s.ph = .done) {j : Nat} {b : Byte}
    (hb : (trailer s.params.csumOrder s.csum)[j]? = some b) : s.frameByte (s.params.padTarget + j) = b := by
  obtain ⟨hj, -⟩ := List.getElem?_eq_some_iff.mp hb
  rw [trailer_length] at hj
  have hwp : s.wp.toNat = s.params.padTarget + 2 := hi.wp_of_phase hph
  refine State.frameByte_of_load ?_
  rw [hi.frameSoFar _ (by omega), padTarget_eq, frame_getElem?_trailer, hb]

end Inv

/-- Settles O29: the invariant's table of `WP` and of `CSUM`, phase by phase. -/
theorem statusOutputsAreAsStated : Obligations.StatusOutputsAreAsStated := by
  refine fun s hi => ⟨busyO_iff s, doneO_iff s, rfl, rfl, fun hd => ?done, fun hd happend => ?before,
    fun hph => hi.checksumOf_memRead (.inl hph)⟩
  case done =>
    have hph : s.ph = .done := (doneO_iff s).mp hd
    refine ⟨hi.wp_of_phase hph, hi.checksumOf_memRead (.inr hph), fun hlow => ?_⟩
    have hlo : s.frameByte s.params.padTarget = s.csum.extractLsb' 0 8 :=
      hi.frameByte_trailer (j := 0) hph (by rw [hlow]; rfl)
    have hhi : s.frameByte (s.params.padTarget + 1) = s.csum.extractLsb' 8 8 :=
      hi.frameByte_trailer hph (by rw [hlow]; rfl)
    rw [hlo, hhi]
    exact toNat_bytes s.csum
  case before => exact hi.csum_eq_zero happend fun hph => by simp [(doneO_iff s).mpr hph] at hd

end Sys2Proof.Machine
end

section
/-! How long a build takes (40_sequencer_and_host.md R119): the operation of a busy phase brings `DONE` one step nearer,
and a step that proceeds without `RESET` performs it. -/

namespace Sys2Proof.Machine

theorem foldsFrom_le_two (n : Nat) : foldsFrom n ≤ 2 := by
  unfold foldsFrom
  split_ifs <;> omega

theorem foldsFrom_eq_zero_iff (n : Nat) : foldsFrom n = 0 ↔ n ≤ 0xFFFF := by
  unfold foldsFrom
  split_ifs with h <;> simp [h]

/-- A fold of a 32-bit value is one of those to come: the second always fits in 16 bits. -/
theorem foldsFrom_foldOnce {acc : BitVec 32} (h : 0xFFFF < acc.toNat) :
    foldsFrom acc.toNat = foldsFrom (foldOnce acc).toNat + 1 := by
  have hlt := acc.isLt
  rw [foldOnce_toNat]
  unfold foldsFrom
  split_ifs <;> omega

/-- How many operations of the phases lie between a state and `DONE`, where the word sum of the build is `n`; the
`START` that `IDLE` waits for counts as one. -/
def stepsToDone (n : Nat) (s : State) : Nat :=
  match s.ph with
  | .idle => 7 + foldsFrom n
  | .build => 6 + foldsFrom n
  | .pad => 5 + foldsFrom n
  | .sum => 4 + foldsFrom n
  | .fold => 3 + foldsFrom s.acc.toNat
  | .cpl => 2
  | .append => 1
  | .done => 0

theorem stepsToDone_eq_zero_iff (n : Nat) (s : State) : stepsToDone n s = 0 ↔ s.ph = .done := by
  cases hph : s.ph <;> simp [stepsToDone, hph]

theorem doneO_iff_stepsToDone (n : Nat) (s : State) : s.doneO = true ↔ stepsToDone n s = 0 :=
  (doneO_iff s).trans (stepsToDone_eq_zero_iff n s).symm

/-- The operation of a phase keeps the latched configuration. -/
theorem phaseOperation_config {s t : State} (ht : phaseOperation s = .next t) : t.en = s.en ∧ t.q = s.q := by
  obtain ⟨-, h⟩ | ⟨-, h⟩ | ⟨-, h⟩ | ⟨-, h⟩ | ⟨-, -, h⟩ | ⟨-, -, h⟩ | ⟨-, h⟩ | ⟨-, h⟩ := phaseOperation_cases s <;>
    rw [h] at ht <;> cases ht <;> simp

/-- What `SUM` puts into the accumulator is the word sum of the padded frame fields. -/
theorem Inv.sumWords32_frameByte {s : State} (hi : Inv s) (hph : s.ph = .sum) {n : Nat}
    (hn : wordSum (paddedFields s.params s.en s.q) = some n) :
    (sumWords32 s.frameByte s.params.nWords).toNat = n := by
  have hlt := nWords_lt s.params
  refine sumWords32_eq_wordSum ((paddedFields_length _ _ _).trans (padTarget_even _)) (by omega) (fun k hk => ?_) hn
  exact hi.paddedFields_getElem?_of_sum hph (by rwa [paddedFields_length] at hk)

/-- The operation of a busy phase is one of those that lie before `DONE`. -/
theorem Inv.stepsToDone_phaseOperation {s t : State} (hi : Inv s) {n : Nat}
    (hn : wordSum (paddedFields s.params s.en s.q) = some n) (hb : s.busyO = true) (ht : phaseOperation s = .next t) :
    stepsToDone n s = stepsToDone n t + 1 ∧ t.ph ≠ .idle := by
  obtain ⟨hph, -⟩ | ⟨hph, h⟩ | ⟨hph, h⟩ | ⟨hph, h⟩ | ⟨hph, ha, h⟩ | ⟨hph, ha, h⟩ | ⟨hph, h⟩ | ⟨hph, h⟩ :=
    phaseOperation_cases s
  case inl => simp [(busyO_eq_false_iff s).mpr hph] at hb
  all_goals
    rw [h] at ht
    cases ht
    simp only [stepsToDone, hph, State.setPh_ph, State.setPh_acc, State.setAcc_acc]
  case inr.inr.inr.inl => simp [hi.sumWords32_frameByte hph hn, Nat.add_right_comm]
  case inr.inr.inr.inr.inl => simp [foldsFrom_foldOnce ha, Nat.add_assoc]
  case inr.inr.inr.inr.inr.inl => simp [(foldsFrom_eq_zero_iff s.acc.toNat).mpr ha]
  all_goals simp [Nat.add_right_comm]

/-- The block is in a build, or has just finished one, whose word sum is `n`. -/
structure InBuild (n : Nat) (s : State) : Prop where
  inv : Inv s
  notIdle : s.ph ≠ .idle
  sum : wordSum (paddedFields s.params s.en s.q) = some n

namespace InBuild

variable {n : Nat} {s : State}

theorem busyO_iff_stepsToDone (h : InBuild n s) : s.busyO = true ↔ 0 < stepsToDone n s := by
  rw [busyO_iff, Nat.pos_iff_ne_zero, ne_eq (stepsToDone n s), stepsToDone_eq_zero_iff]
  exact and_iff_right h.notIdle

theorem of_setInputs (h : InBuild n s) (l : List Stimulus) : InBuild n (s.setInputs l) :=
  ⟨h.inv.of_setInputs l, h.notIdle, h.sum⟩

/-- The operation of a busy phase goes on with the build. -/
theorem of_phaseOperation (h : InBuild n s) (hb : s.busyO = true) {t : State} (ht : phaseOperation s = .next t) :
    InBuild n t ∧ stepsToDone n s = stepsToDone n t + 1 := by
  obtain ⟨hen, hq⟩ := phaseOperation_config ht
  obtain ⟨hp, -⟩ := phaseOperation_sameModelFields ht
  obtain ⟨hsteps, hidle⟩ := h.inv.stepsToDone_phaseOperation h.sum hb ht
  exact ⟨⟨h.inv.of_phaseOperation ht, hidle, by rw [← hp, hen, hq, h.sum]⟩, hsteps⟩

/-- An accepted `START` begins a build with all its steps before it. -/
theorem of_step_start {p : StepInput} {rest : List Stimulus} (hph : s.ph = .idle ∨ s.ph = .done)
    (hin : s.inputs = .step p :: rest) (hr : p.rst = false) (hs : p.start = true)
    (hn : wordSum (paddedFields s.params p.enable p.quantum) = some n) :
    ∃ u, step s = .next u ∧ InBuild n u ∧ u.inputs = rest ∧ stepsToDone n u = 6 + foldsFrom n :=
  ⟨_, step_start hin hr hs ((acceptsStart_iff s).mpr hph),
    ⟨Inv.of_cleared (.inr rfl) rfl rfl rfl rfl (fun h => nomatch h), (fun h => nomatch h), hn⟩, rfl, rfl⟩

end InBuild

/-- A busy step that proceeds without `RESET` performs the operation of the phase, after the last stimulus too. -/
theorem step_of_busy_proceeds {s : State} (hb : s.busyO = true)
    (hin : ∀ x ∈ s.inputs, x.noReset = true ∧ x.proceeds = true) :
    step s = phaseOperation (s.setInputs s.inputs.tail) := by
  rcases hs : s.inputs with _ | ⟨p | a, rest⟩
  · exact (step_empty hs).trans (congrArg (fun l => phaseOperation (s.setInputs l)) hs)
  · obtain ⟨hr, hw⟩ : p.rst = false ∧ p.stall = false := by
      simpa [Stimulus.noReset, Stimulus.proceeds] using hin (.step p) (by simp [hs])
    rw [step_of_busy hb hs hr, hw]
    rfl
  · simpa [Stimulus.proceeds] using (hin (.sample a) (by simp [hs])).2

/-- Steps that all proceed use up the operations before `DONE` one by one. -/
theorem InBuild.exists_runSteps {n j : Nat} {s : State} (h : InBuild n s)
    (hin : ∀ x ∈ s.inputs, x.noReset = true ∧ x.proceeds = true) (hj : j ≤ stepsToDone n s) :
    ∃ t, runSteps j s = .next t ∧ InBuild n t ∧ stepsToDone n t + j = stepsToDone n s := by
  induction j generalizing s with
  | zero => exact ⟨s, rfl, h, rfl⟩
  | succ j ih =>
    have hb : s.busyO = true := h.busyO_iff_stepsToDone.mpr (by omega)
    obtain ⟨u, hu⟩ := exists_phaseOperation (s.setInputs s.inputs.tail)
    obtain ⟨hbuild, hsteps⟩ := (h.of_setInputs s.inputs.tail).of_phaseOperation hb hu
    have hsu : stepsToDone n s = stepsToDone n u + 1 := hsteps
    have huin : s.inputs.tail = u.inputs := (phaseOperation_sameModelFields hu).2.1
    obtain ⟨t, ht, htbuild, htsteps⟩ := ih hbuild (fun x hx => hin x (List.mem_of_mem_tail (huin ▸ hx))) (by omega)
    exact ⟨t, (runSteps_succ ((step_of_busy_proceeds hb hin).trans hu)).trans ht, htbuild, by omega⟩

/-- Settles O34: `START` begins a build with `6 + n` operations before `DONE`, and every further step performs one. -/
theorem buildTakesSixStepsPlusTheFolds : Obligations.BuildTakesSixStepsPlusTheFolds := by
  refine ⟨fun s p rest n j hph hin hr hs hrest hn hj => ?steps, fun n => ⟨foldsFrom_le_two n, foldsFrom_eq_zero_iff n⟩,
    ⟨0x9755, by decide, rfl⟩, ⟨0x28454, by decide, rfl⟩, ⟨0x8FFF8, by decide, rfl⟩⟩
  case steps =>
    obtain ⟨u, hu, hbuild, huin, hsteps⟩ := InBuild.of_step_start hph hin hr hs hn
    obtain ⟨t, ht, htbuild, htsteps⟩ := hbuild.exists_runSteps (huin ▸ hrest) (hsteps ▸ hj)
    refine ⟨t, ?_, ?_, ?_⟩
    · rw [Nat.add_comm, runSteps_succ hu, ht]
    · rw [doneO_iff_stepsToDone n t]
      omega
    · rw [htbuild.busyO_iff_stepsToDone]
      omega

end Sys2Proof.Machine
end

section
/-! The frame field builder (41_builder.md R140 to R143) and the class-enable byte (R142). -/

namespace Sys2Proof.Machine

section
variable {s t : State} (ht : execBuild s = .next t) {k : Nat}
include ht

/-- `BUILD` puts FrameFields at offsets 0 to 33 (41_builder.md R140, R141). -/
theorem execBuild_load_of_lt (hk : k < 34) : Memory.load t.fb k = (frameFields s.en s.q)[k]? := by
  obtain ⟨-, -, hfb, -⟩ := execBuild_spec ht
  rw [hfb, Memory.load_storeBytes_inside _ _ _ _ (Nat.zero_le k) (by simpa using hk), Nat.sub_zero]

/-- `BUILD` leaves the bytes from 34 on (41_builder.md R140). -/
theorem execBuild_load_of_ge (hk : 34 ≤ k) : Memory.load t.fb k = Memory.load s.fb k := by
  obtain ⟨-, -, hfb, -⟩ := execBuild_spec ht
  rw [hfb, Memory.load_storeBytes_outside _ _ _ _ (.inr (by simpa using hk))]

end

/-- The 16 constant bytes come first (41_builder.md R141, 30_encoding.md R82 to R85). -/
theorem frameFields_getElem?_header (en : BitVec 8) (q : Quanta) {k : Nat} (hk : k < 16) : (frameFields en q)[k]? =
    [0x01#8, 0x80#8, 0xC2#8, 0x00#8, 0x00#8, 0x01#8, 0x01#8, 0x02#8, 0x03#8, 0x04#8, 0x05#8, 0x06#8,
      0x88#8, 0x08#8, 0x01#8, 0x01#8][k]? := by
  rw [frameFields, List.append_assoc]
  exact List.getElem?_append_left hk

/-- Settles O16: the buffer below 34 is FrameFields, read at each offset of its table; `execBuild_spec` has the rest. -/
theorem buildWritesTheFrameFields : Obligations.BuildWritesTheFrameFields := by
  intro s
  have ht := execBuild_eq s
  obtain ⟨hph, hwp, -, hregs⟩ := execBuild_spec ht
  refine ⟨_, ht, fun k hk => ?header, execBuild_load_of_lt ht (by decide), execBuild_load_of_lt ht (by decide),
    fun i => ?quantum, fun k => execBuild_load_of_ge ht, congrArg BitVec.toNat hwp, hph, rfl, hregs⟩
  case header => exact (execBuild_load_of_lt ht (by omega)).trans (frameFields_getElem?_header s.en s.q hk)
  case quantum =>
    obtain ⟨hhi, hlo⟩ := frameFields_getElem?_quantum s.en s.q i
    exact ⟨(execBuild_load_of_lt ht (by omega)).trans hhi, (execBuild_load_of_lt ht (by omega)).trans hlo⟩

/-- The loop sets bit `j` exactly for an enabled class `j` among those it visits. -/
theorem classEnableByte_getLsbD (en : BitVec 8) (l : List (Fin 8)) (j : Fin 8) :
    (classEnableByte en l).getLsbD j.val = (decide (j ∈ l) && en.getLsbD j.val) := by
  induction l with
  | nil => simp [classEnableByte]
  | cons i is ih =>
    have hbit : (1#8 <<< i.val).getLsbD j.val = decide (j = i) := by
      rw [← BitVec.twoPow_eq, BitVec.getLsbD_twoPow]
      simp [Fin.ext_iff, eq_comm]
    cases hi : en.getLsbD i.val with
    | true =>
      rw [classEnableByte, if_pos hi, BitVec.getLsbD_or, ih, hbit]
      rcases eq_or_ne j i with rfl | hne
      · rw [hi]
        simp
      · simp [hne]
    | false =>
      rw [classEnableByte, if_neg (by rw [hi]; decide), ih]
      rcases eq_or_ne j i with rfl | hne
      · rw [hi, Bool.and_false, Bool.and_false]
      · simp [hne]

/-- A loop that visits every class gives the enable flags. -/
theorem classEnableByte_eq_of_forall_mem (en : BitVec 8) {l : List (Fin 8)} (hl : ∀ j, j ∈ l) :
    classEnableByte en l = en := by
  refine BitVec.eq_of_getLsbD_eq fun j hj => ?_
  have hbit := classEnableByte_getLsbD en l ⟨j, hj⟩
  rwa [decide_eq_true (hl _), Bool.true_and] at hbit

/-- `0x00` and then `EN` is `EN` big-endian (41_builder.md R142). -/
theorem classEnableVector_eq_be16 (en : BitVec 8) : classEnableVector en = be16 (en.setWidth 16) := by
  have hlt := en.isLt
  have hhi : (en.setWidth 16).extractLsb' 8 8 = 0x00#8 := by
    apply BitVec.eq_of_toNat_eq
    simp only [BitVec.extractLsb'_toNat, BitVec.toNat_setWidth, Nat.shiftRight_eq_div_pow, BitVec.toNat_ofNat]
    omega
  have hlo : (en.setWidth 16).extractLsb' 0 8 = en := by
    apply BitVec.eq_of_toNat_eq
    simp only [BitVec.extractLsb'_toNat, BitVec.toNat_setWidth, Nat.shiftRight_zero]
    omega
  rw [be16, hhi, hlo, classEnableVector]

/-- Settles O38: an ordering of the eight classes visits each of them, whatever the order. -/
theorem classEnableLoopGivesTheEnableByte : Obligations.ClassEnableLoopGivesTheEnableByte :=
  fun en _ hl => ⟨classEnableByte_eq_of_forall_mem en fun j => hl.mem_iff.mpr (List.mem_finRange j),
    classEnableVector_eq_be16 en⟩

end Sys2Proof.Machine
end

section
/-! The fold as arithmetic (42_checksum.md R162, R165, R166): at most 16 bits, congruent to what is folded modulo
`0xFFFF`, and 0 only for 0. These three determine the folded value, so procedures that keep them agree. -/

namespace Sys2Proof.Machine

/-- A fold takes away `0xFFFF` for each unit of the upper part. -/
theorem fold_mod (acc : Nat) : (acc / 65536 + acc % 65536) % 0xFFFF = acc % 0xFFFF := by omega

/-- The loop keeps the value modulo `0xFFFF` and makes no 0 (42_checksum.md R162). -/
theorem foldAll_mod_and_eq_zero_iff (n : Nat) : foldAll n % 0xFFFF = n % 0xFFFF ∧ (foldAll n = 0 ↔ n = 0) := by
  induction n using Nat.strong_induction_on with
  | _ n ih =>
    by_cases h : 0xFFFF < n
    · obtain ⟨hmod, hzero⟩ := ih _ (foldRound_lt h)
      rw [foldAll_of_lt h]
      exact ⟨hmod.trans (fold_mod n), hzero.trans (by omega)⟩
    · rw [foldAll_of_le (by omega)]
      exact ⟨rfl, Iff.rfl⟩

theorem foldAll_mod (n : Nat) : foldAll n % 0xFFFF = n % 0xFFFF := (foldAll_mod_and_eq_zero_iff n).1

theorem foldAll_eq_zero_iff (n : Nat) : foldAll n = 0 ↔ n = 0 := (foldAll_mod_and_eq_zero_iff n).2

/-- The folded value is the only one with its three properties. -/
theorem eq_foldAll {a n : Nat} (hle : a ≤ 0xFFFF) (hmod : a % 0xFFFF = n % 0xFFFF) (hzero : a = 0 ↔ n = 0) :
    a = foldAll n := by
  have hle' := foldAll_le n
  have hmod' := foldAll_mod n
  have hzero' := foldAll_eq_zero_iff n
  omega

/-- A part of a sum may be folded before the sum is. -/
theorem foldAll_foldAll_add (n k : Nat) : foldAll (foldAll n + k) = foldAll (n + k) := by
  have hmod := foldAll_mod n
  have hzero := foldAll_eq_zero_iff n
  refine eq_foldAll (foldAll_le _) ?_ ?_
  · rw [foldAll_mod]
    omega
  · rw [foldAll_eq_zero_iff]
    omega

/-- An add with end-around carry is an add and its fold (42_checksum.md R166 (c)). -/
theorem endAroundAdd_eq_foldAll {acc w : Nat} (hacc : acc ≤ 0xFFFF) (hw : w ≤ 0xFFFF) :
    endAroundAdd acc w = foldAll (acc + w) := by
  unfold endAroundAdd
  split
  · exact eq_foldAll (by omega) (by omega) (by omega)
  · exact (foldAll_of_le (by omega)).symm

/-- Word by word, end-around carry reaches the folded sum. -/
theorem endAroundSum_eq_foldAll {b : List Byte} {n acc : Nat} (hacc : acc ≤ 0xFFFF) (hn : wordSum b = some n) :
    endAroundSum b acc = foldAll (acc + n) := by
  induction b using wordSum.induct generalizing acc n with
  | case1 =>
    obtain rfl : 0 = n := Option.some.inj hn
    exact (foldAll_of_le hacc).symm
  | case2 => simp [wordSum] at hn
  | case3 lo hi rest ih =>
    obtain ⟨m, hm, rfl⟩ : ∃ m, wordSum rest = some m ∧ (wordOf lo hi).toNat + m = n := by
      simpa [wordSum] using hn
    have hadd : endAroundAdd acc (wordOf lo hi).toNat = foldAll (acc + (wordOf lo hi).toNat) :=
      endAroundAdd_eq_foldAll hacc (by have := (wordOf lo hi).isLt; omega)
    rw [endAroundSum, hadd, ih (foldAll_le _) hm, foldAll_foldAll_add, Nat.add_assoc]

/-- A fold does not change what the loop ends with. -/
theorem foldAll_fold (acc : Nat) : foldAll (acc / 65536 + acc % 65536) = foldAll acc :=
  eq_foldAll (foldAll_le _) ((foldAll_mod _).trans (fold_mod acc)) ((foldAll_eq_zero_iff _).trans (by omega))

/-- Up to the sum of 30 words one fold gives at most `0x1001B`, and then the additional add is the second fold where
there is one, and nothing otherwise (42_checksum.md R166 (b)). -/
theorem oneFoldOneAdd_eq_foldAll {acc : Nat} (hacc : acc ≤ 0x1DFFE2) : oneFoldOneAdd acc = foldAll acc := by
  have hle : acc / 65536 + acc % 65536 ≤ 0x1001B := by omega
  rw [oneFoldOneAdd, ← foldAll_fold]
  generalize acc / 65536 + acc % 65536 = s at hle
  by_cases hs : 0xFFFF < s
  · rw [foldAll_of_lt hs, foldAll_of_le (by omega)]
    omega
  · rw [foldAll_of_le (by omega)]
    omega

/-- Settles O41: each procedure keeps the three properties that determine the folded value. -/
theorem threeFoldProceduresAgree : Obligations.ThreeFoldProceduresAgree := by
  refine ⟨fun acc => oneFoldOneAdd_eq_foldAll, fun b n hn => ?_,
    fun n => ⟨foldAll_le n, foldAll_mod n, foldAll_eq_zero_iff n⟩⟩
  rw [endAroundSum_eq_foldAll (Nat.zero_le _) hn, Nat.zero_add]

/-- One fold of a 32-bit value fits in 17 bits, a second one in 16 (42_checksum.md R165). -/
theorem foldOnce_le (acc : BitVec 32) :
    (foldOnce acc).toNat ≤ 0x1FFFE ∧ (foldOnce (foldOnce acc)).toNat ≤ 0xFFFF := by
  have hlt := acc.isLt
  have h1 := foldOnce_toNat acc
  have h2 := foldOnce_toNat (foldOnce acc)
  omega

/-- A fold makes no 0 from another value. -/
theorem foldOnce_ne_zero {acc : BitVec 32} (h : acc ≠ 0#32) : foldOnce acc ≠ 0#32 := by
  rw [ne_eq, ← BitVec.toNat_inj, BitVec.toNat_ofNat] at h ⊢
  rw [foldOnce_toNat]
  omega

/-- Settles O19: `FOLD` folds above `0xFFFF` and leaves otherwise; the bounds are those of a fold. -/
theorem foldFoldsOnceOrLeaves : Obligations.FoldFoldsOnceOrLeaves := by
  intro s
  obtain ⟨hle, hle2⟩ := foldOnce_le s.acc
  rw [foldOnce_toNat (foldOnce s.acc)] at hle2
  by_cases hbig : 0xFFFF < s.acc.toNat
  · have ht := execFold_folds hbig
    obtain ⟨-, hframe⟩ := execFold_spec ht
    exact ⟨_, ht, fun _ => ⟨foldOnce_toNat s.acc, rfl, hle, hle2⟩, fun h => absurd hbig (by omega), foldOnce_ne_zero,
      hframe⟩
  · have ht := execFold_leaves (s := s) (by omega)
    obtain ⟨-, hframe⟩ := execFold_spec ht
    exact ⟨_, ht, fun h => absurd h hbig, fun _ => ⟨rfl, rfl⟩, id, hframe⟩

theorem complement16_getLsbD (acc : BitVec 32) {i : Nat} (hi : i < 16) :
    (complement16 acc).getLsbD i = !acc.getLsbD i := by
  have hi' : i < 32 := by omega
  simp [complement16, hi, hi']

/-- Settles O20: `CSUM` is the complement of the low 16 bits, bit by bit and as a difference. -/
theorem cplComplementsTheLowHalf : Obligations.CplComplementsTheLowHalf := by
  intro s
  have ht := execCpl_eq s
  obtain ⟨hph, -, hfb, hen, hq, hwp, hacc, hmodel⟩ := execCpl_spec ht
  refine ⟨_, ht, fun i => complement16_getLsbD s.acc, fun hle => ?_, hph, hacc, hfb, hen, hq, hwp, hmodel⟩
  show (complement16 s.acc).toNat = _
  rw [complement16_toNat]
  omega

end Sys2Proof.Machine
end

section
/-! The word sum and the checksum as functions of the bytes (42_checksum.md R160, R164): the sum of a sequence is that of
its parts, so the padding adds nothing and the frame fields add the closed form. -/

namespace Sys2Proof.Machine

/-- An odd number of bytes has no word sum (42_checksum.md R160). -/
theorem wordSum_of_odd {b : List Byte} (h : b.length % 2 = 1) : wordSum b = none := by
  induction b using wordSum.induct with
  | case1 => simp at h
  | case2 => rfl
  | case3 lo hi rest ih =>
    have hrest : rest.length % 2 = 1 := by
      simp only [List.length_cons] at h
      omega
    rw [wordSum, ih hrest, Option.map_none]

theorem wordSum_append {a b : List Byte} {m n : Nat} (ha : wordSum a = some m) (hb : wordSum b = some n) :
    wordSum (a ++ b) = some (m + n) := by
  induction a using wordSum.induct generalizing m with
  | case1 =>
    obtain rfl : 0 = m := Option.some.inj ha
    rwa [List.nil_append, Nat.zero_add]
  | case2 => simp [wordSum] at ha
  | case3 lo hi rest ih =>
    obtain ⟨k, hk, rfl⟩ : ∃ k, wordSum rest = some k ∧ (wordOf lo hi).toNat + k = m := by
      simpa [wordSum] using ha
    rw [List.cons_append, List.cons_append, wordSum, ih hk, Option.map_some, Nat.add_assoc]

theorem wordSum_pair (lo hi : Byte) : wordSum [lo, hi] = some (wordOf lo hi).toNat := rfl

/-- The padding adds nothing. -/
theorem wordSum_zeros (n : Nat) : wordSum (zeros (2 * n)) = some 0 := by
  induction n with
  | zero => rfl
  | succ n ih =>
    have hcons : zeros (2 * (n + 1)) = 0x00#8 :: 0x00#8 :: zeros (2 * n) := rfl
    rw [hcons, wordSum, ih]
    rfl

/-- The exchange of the two bytes, as a number. -/
theorem bswap16_toNat (v : Half) : (bswap16 v).toNat = v.toNat / 256 + 256 * (v.toNat % 256) := by
  have hlt := v.isLt
  have hlo : v.toNat &&& 0xFF = v.toNat % 256 := Nat.and_two_pow_sub_one_eq_mod v.toNat 8
  have hhi : v.toNat / 256 < 2 ^ 8 := by omega
  have hor := Nat.shiftLeft_add_eq_or_of_lt hhi (v.toNat % 256)
  simp only [bswap16, BitVec.toNat_or, BitVec.toNat_shiftLeft, BitVec.toNat_ushiftRight, BitVec.toNat_and]
  rw [BitVec.toNat_ofNat, Nat.shiftRight_eq_div_pow, hlo, Nat.shiftLeft_eq, Nat.mod_eq_of_lt (by omega),
    ← Nat.shiftLeft_eq, ← hor, Nat.shiftLeft_eq]
  omega

/-- The word of a big-endian value has the bytes exchanged (42_checksum.md R164). -/
theorem wordSum_be16 (v : Half) : wordSum (be16 v) = some (bswap16 v).toNat := by
  have hlt := v.isLt
  rw [be16, wordSum_pair, wordOf_toNat, bswap16_toNat, BitVec.extractLsb'_toNat, BitVec.extractLsb'_toNat,
    Nat.shiftRight_eq_div_pow, Nat.shiftRight_zero]
  congr 1
  omega

theorem wordSum_le16 (v : Half) : wordSum (le16 v) = some v.toNat := by
  rw [le16, wordSum_pair, wordOf_toNat, toNat_bytes]

/-- The eight constant words (30_encoding.md R90). -/
theorem wordSum_header :
    wordSum (Config.dstMac ++ Config.srcMac ++ be16 Config.ethertype ++ be16 Config.opcode) = some 0x9755 := by
  decide

/-- The class-enable vector is one word, whose high byte is `EN`. -/
theorem wordSum_classEnableVector (en : BitVec 8) : wordSum (classEnableVector en) = some (en.toNat * 256) := by
  rw [classEnableVector, wordSum_pair, wordOf_toNat, BitVec.toNat_ofNat, Nat.mul_comm]
  exact congrArg some (Nat.zero_add _)

theorem wordSum_quantumFields (q : Quanta) : wordSum (quantumFields q) =
    some ((bswap16 q[0]).toNat + (bswap16 q[1]).toNat + (bswap16 q[2]).toNat + (bswap16 q[3]).toNat
      + (bswap16 q[4]).toNat + (bswap16 q[5]).toNat + (bswap16 q[6]).toNat + (bswap16 q[7]).toNat) := by
  rw [quantumFields]
  repeat' apply wordSum_append
  all_goals exact wordSum_be16 _

theorem wordSum_frameFields (en : BitVec 8) (q : Quanta) : wordSum (frameFields en q) = some (closedSum en q) := by
  have hpre := wordSum_append wordSum_header (wordSum_classEnableVector en)
  exact wordSum_append hpre (wordSum_quantumFields q)

/-- The closed form of the sum (42_checksum.md R164): the padding adds nothing to the frame fields. -/
theorem wordSum_paddedFields (p : Config.Params) (en : BitVec 8) (q : Quanta) :
    wordSum (paddedFields p en q) = some (closedSum en q) := by
  rw [paddedFields, padded, Config.Params.padLen, wordSum_append (wordSum_frameFields en q) (wordSum_zeros _),
    Nat.add_zero]

/-- The closed form of the checksum (42_checksum.md R164). -/
theorem checksumOf_paddedFields (p : Config.Params) (en : BitVec 8) (q : Quanta) :
    checksumOf (paddedFields p en q) = some (~~~ (BitVec.ofNat 16 (foldAll (closedSum en q)))) :=
  checksumOf_of_wordSum (wordSum_paddedFields p en q)

theorem closedSum_ge (en : BitVec 8) (q : Quanta) : 0x9755 ≤ closedSum en q := by
  rw [closedSum, Nat.add_assoc]
  exact Nat.le_add_right _ _

/-- Each of the nine parts is at most its largest value (42_checksum.md R164). -/
theorem closedSum_le (en : BitVec 8) (q : Quanta) : closedSum en q ≤ 0x9964D := by
  have hword (v : Half) : (bswap16 v).toNat ≤ 0xFFFF := Nat.le_of_lt_succ (bswap16 v).isLt
  have hen := en.isLt
  have h0 := hword q[0]
  have h1 := hword q[1]
  have h2 := hword q[2]
  have h3 := hword q[3]
  have h4 := hword q[4]
  have h5 := hword q[5]
  have h6 := hword q[6]
  have h7 := hword q[7]
  unfold closedSum
  omega

theorem toList_quanta (q : Quanta) : q.toList = [q[0], q[1], q[2], q[3], q[4], q[5], q[6], q[7]] := by
  obtain ⟨⟨l⟩, hl⟩ := q
  match l, hl with
  | [_, _, _, _, _, _, _, _], _ => rfl

/-- The sum sees the quanta as a list. -/
theorem closedSum_eq_sum_toList (en : BitVec 8) (q : Quanta) :
    closedSum en q = 0x9755 + en.toNat * 256 + (q.toList.map fun v => (bswap16 v).toNat).sum := by
  simp only [toList_quanta, closedSum, List.map_cons, List.map_nil, List.sum_cons, List.sum_nil, Nat.add_zero,
    Nat.add_assoc]

/-- Exchanging quanta between classes does not change the sum. -/
theorem closedSum_perm {q q' : Quanta} (h : q.toList.Perm q'.toList) (en : BitVec 8) :
    closedSum en q = closedSum en q' := by
  rw [closedSum_eq_sum_toList, closedSum_eq_sum_toList, (h.map _).sum_eq]

/-- The complement of a folded value in 16 bits, as a number (42_checksum.md R160). -/
theorem toNat_not_ofNat_foldAll (n : Nat) : (~~~ (BitVec.ofNat 16 (foldAll n))).toNat = 0xFFFF - foldAll n := by
  have hle := foldAll_le n
  rw [BitVec.toNat_not, BitVec.toNat_ofNat, Nat.mod_eq_of_lt (by omega)]

/-- Settles O39: an even number of bytes has a word sum, an odd number has none, and the fold is the loop's equation. -/
theorem checksumIsDefinedOnEvenLengths : Obligations.ChecksumIsDefinedOnEvenLengths := by
  refine ⟨fun b n hb => ?even, fun b hb => ?odd, foldAll_eq⟩
  case even =>
    have hsum := wordSum_eq_some b n hb
    simp only [wordOf_toNat] at hsum
    exact ⟨_, checksumOf_of_wordSum hsum, toNat_not_ofNat_foldAll _⟩
  case odd => rw [checksumOf, wordSum_of_odd hb, Option.map_none]

/-- Settles O40: the sum part by part, each part at most its largest value, and the quanta's part independent of their
order. -/
theorem checksumHasTheClosedForm : Obligations.ChecksumHasTheClosedForm := by
  refine ⟨fun p en q => ⟨wordSum_paddedFields p en q, checksumOf_paddedFields p en q, closedSum_ge en q,
    closedSum_le en q⟩, by decide, by decide, fun p p' en q q' h => ?_⟩
  rw [checksumOf_paddedFields, checksumOf_paddedFields, closedSum_perm h]

end Sys2Proof.Machine
end

section
/-! How often `FOLD` folds, and how large the accumulator gets (42_checksum.md R165). -/

namespace Sys2Proof.Machine

theorem foldAll_foldOnce (acc : BitVec 32) : foldAll (foldOnce acc).toNat = foldAll acc.toNat := by
  rw [foldOnce_toNat, foldAll_fold]

theorem noReset_of_noRequest {x : Stimulus} (h : x.noRequest = true) : x.noReset = true := by
  cases x with
  | step p => exact (Bool.and_eq_true_iff.mp h).1
  | sample a => rfl

/-- A step in `FOLD` that proceeds without `RESET` performs it, after the last stimulus too. -/
theorem step_of_fold_proceeds {s : State} (hph : s.ph = .fold)
    (hin : ∀ x ∈ s.inputs, x.noReset = true ∧ x.proceeds = true) :
    step s = execFold (s.setInputs s.inputs.tail) := by
  have hb : s.busyO = true := by simp [busyO_iff, hph]
  rw [step_of_busy_proceeds hb hin]
  simp only [phaseOperation, State.setInputs_ph, hph]

/-- Steps that all proceed fold as often as the accumulator needs, and one more leaves `FOLD` with the value of the
whole loop. -/
theorem runSteps_leaves_fold {s : State} (hph : s.ph = .fold)
    (hin : ∀ x ∈ s.inputs, x.noReset = true ∧ x.proceeds = true) :
    ∃ t, runSteps (foldsFrom s.acc.toNat + 1) s = .next t ∧ t.ph = .cpl ∧ t.acc.toNat = foldAll s.acc.toNat := by
  induction hm : foldsFrom s.acc.toNat generalizing s with
  | zero =>
    have hle : s.acc.toNat ≤ 0xFFFF := (foldsFrom_eq_zero_iff _).mp hm
    have hstep := (step_of_fold_proceeds hph hin).trans (execFold_leaves hle)
    exact ⟨_, runSteps_succ hstep, rfl, (foldAll_of_le hle).symm⟩
  | succ m ih =>
    have hbig : 0xFFFF < s.acc.toNat := by
      by_contra hle
      simp [(foldsFrom_eq_zero_iff s.acc.toNat).mpr (by omega)] at hm
    have hstep := (step_of_fold_proceeds hph hin).trans (execFold_folds hbig)
    have hrest : ∀ x ∈ s.inputs.tail, x.noReset = true ∧ x.proceeds = true :=
      fun x hx => hin x (List.mem_of_mem_tail hx)
    have hfolds : foldsFrom (foldOnce s.acc).toNat = m := by
      have hdec := foldsFrom_foldOnce hbig
      omega
    obtain ⟨t, ht, hpht, hacct⟩ := ih (s := ((s.setInputs s.inputs.tail).setAcc (foldOnce s.acc)).setPh .fold) rfl hrest
      hfolds
    exact ⟨t, (runSteps_succ hstep).trans ht, hpht, hacct.trans (foldAll_foldOnce s.acc)⟩

/-- From the largest sum of a padded sequence, one fold gives at most `0x10008` and a second at most 9. -/
theorem foldOnce_le_of_le {acc : BitVec 32} (h : acc.toNat ≤ 0x9964D) : (foldOnce acc).toNat ≤ 0x10008 ∧
    (0xFFFF < (foldOnce acc).toNat → (foldOnce (foldOnce acc)).toNat ≤ 0x9) := by
  have h1 := foldOnce_toNat acc
  have h2 := foldOnce_toNat (foldOnce acc)
  omega

/-- Settles O36: the number of folds is at most two, and the bounds are those of sums and folds. -/
theorem foldIsLeftAfterAtMostTwoFolds : Obligations.FoldIsLeftAfterAtMostTwoFolds := by
  refine ⟨fun s hph hin => ?leaves, foldOnce_le, fun acc => foldOnce_le_of_le,
    fun f => (sumWords32_toNat f 30 (by decide)).2, fun p en q n hn => ?sum⟩
  case leaves =>
    obtain ⟨t, ht, hpht, hacct⟩ :=
      runSteps_leaves_fold hph fun x hx => ⟨noReset_of_noRequest (hin x hx).1, (hin x hx).2⟩
    have hfolds := foldsFrom_le_two s.acc.toNat
    exact ⟨_, t, by omega, ht, hpht, hacct, hacct ▸ foldAll_le s.acc.toNat⟩
  case sum =>
    obtain rfl : closedSum en q = n := Option.some.inj ((wordSum_paddedFields p en q).symm.trans hn)
    exact closedSum_le en q

end Sys2Proof.Machine
end

section
/-! The self-verification of the frame (42_checksum.md R168) and the range of the checksum (R169). -/

namespace Sys2Proof.Machine

/-- A checksum is what the folded sum lacks to `0xFFFF`. -/
theorem toNat_of_checksumOf {b : List Byte} {n : Nat} {c : Half} (hn : wordSum b = some n)
    (hc : checksumOf b = some c) : c.toNat = 0xFFFF - foldAll n := by
  rw [checksumOf_of_wordSum hn] at hc
  rw [← Option.some.inj hc, toNat_not_ofNat_foldAll]

/-- A sum and its checksum fold to `0xFFFF` (42_checksum.md R168). -/
theorem foldAll_add_checksum {b : List Byte} {n : Nat} {c : Half} (hn : wordSum b = some n)
    (hc : checksumOf b = some c) : foldAll (n + c.toNat) = 0xFFFF := by
  have hle := foldAll_le n
  rw [← foldAll_foldAll_add, toNat_of_checksumOf hn hc, Nat.add_sub_of_le hle, foldAll_of_le (Nat.le_refl _)]

/-- A low byte first trailer is the word of the checksum. -/
theorem wordSum_append_le16 {b : List Byte} {n : Nat} (hn : wordSum b = some n) (c : Half) :
    wordSum (b ++ le16 c) = some (n + c.toNat) :=
  wordSum_append hn (wordSum_le16 c)

/-- Where the sum folds to `0xFFFF`, the checksum is 0. -/
theorem checksumOf_eq_zero {b : List Byte} {n : Nat} (hn : wordSum b = some n) (hfold : foldAll n = 0xFFFF) :
    checksumOf b = some 0x0000#16 := by
  rw [checksumOf_of_wordSum hn, hfold]
  rfl

/-- The quanta of the source's scenario (42_checksum.md R161, R168). -/
def scenarioQuanta : Quanta := #v[100#16, 0#16, 0#16, 0#16, 0#16, 0#16, 0#16, 65535#16]

theorem wordSum_scenario (p : Config.Params) : wordSum (paddedFields p 0x89#8 scenarioQuanta) = some 0x28454 := by
  have hsum : closedSum 0x89#8 scenarioQuanta = 0x28454 := by decide
  rw [wordSum_paddedFields, hsum]

theorem checksumOf_scenario (p : Config.Params) :
    checksumOf (paddedFields p 0x89#8 scenarioQuanta) = some 0x7BA9#16 := by
  rw [checksumOf_of_wordSum (wordSum_scenario p), foldAll_of_lt (by decide), foldAll_of_le (by decide)]
  rfl

/-- With its bytes exchanged, the scenario's trailer is the word `0xA97B`. -/
theorem wordSum_scenario_be16 (p : Config.Params) :
    wordSum (paddedFields p 0x89#8 scenarioQuanta ++ be16 0x7BA9#16) = some 0x32DCF := by
  have hswap : (bswap16 0x7BA9#16).toNat = 0xA97B := by decide
  rw [wordSum_append (wordSum_scenario p) (wordSum_be16 0x7BA9#16), hswap]

/-- Settles O42: the trailer adds to the sum what it lacks to `0xFFFF`; with its bytes exchanged it adds something
else. -/
theorem frameVerifiesItself : Obligations.FrameVerifiesItself := by
  refine ⟨fun p en q n c hn hc => ⟨foldAll_add_checksum hn hc, fun hlow w hw => ?low⟩, ?high⟩
  case low =>
    rw [wireFrame_of_checksum hc, hlow] at hw
    obtain rfl : paddedFields p en q ++ le16 c = w := Option.some.inj hw
    have hsum := wordSum_append_le16 hn c
    have hfold := foldAll_add_checksum hn hc
    exact ⟨⟨_, hsum, hfold⟩, checksumOf_eq_zero hsum hfold⟩
  case high =>
    refine ⟨_, _, wireFrame_of_checksum (checksumOf_scenario _), wordSum_scenario_be16 _, ?_⟩
    rw [foldAll_of_lt (by decide), foldAll_of_le (by decide)]

/-- The exchange of the bytes reaches every value. -/
theorem exists_bswap16_toNat {x : Nat} (hx : x ≤ 0xFFFF) : ∃ v : Half, (bswap16 v).toNat = x := by
  refine ⟨BitVec.ofNat 16 (x / 256 + 256 * (x % 256)), ?_⟩
  rw [bswap16_toNat, BitVec.toNat_ofNat, Nat.mod_eq_of_lt (by omega)]
  omega

/-- From `0x9755` on, the first quantum brings the sum to each of the next `0xFFFF` values. -/
theorem exists_closedSum_eq {x : Nat} (hx : x ≤ 0xFFFF) : ∃ q : Quanta, closedSum 0x00#8 q = 0x9755 + x := by
  obtain ⟨v, rfl⟩ := exists_bswap16_toNat hx
  have hzero : (bswap16 0#16).toNat = 0 := by decide
  exact ⟨#v[v, 0#16, 0#16, 0#16, 0#16, 0#16, 0#16, 0#16], by simp [closedSum, hzero]⟩

/-- Every folded value but 0 is that of some configuration, whose sum is the value itself or the value once around. -/
theorem exists_foldAll_closedSum {v : Nat} (hpos : 0 < v) (hle : v ≤ 0xFFFF) :
    ∃ q : Quanta, foldAll (closedSum 0x00#8 q) = v := by
  by_cases hv : 0x9755 ≤ v
  · obtain ⟨q, hq⟩ := exists_closedSum_eq (x := v - 0x9755) (by omega)
    exact ⟨q, (eq_foldAll hle (by omega) (by omega)).symm⟩
  · obtain ⟨q, hq⟩ := exists_closedSum_eq (x := v + 0xFFFF - 0x9755) (by omega)
    exact ⟨q, (eq_foldAll hle (by omega) (by omega)).symm⟩

section
variable {p : Config.Params} {en : BitVec 8} {q : Quanta} {c : Half} (hc : checksumOf (paddedFields p en q) = some c)
include hc

theorem checksum_toNat : c.toNat = 0xFFFF - foldAll (closedSum en q) :=
  toNat_of_checksumOf (wordSum_paddedFields p en q) hc

/-- The sum of a configuration is not 0, so its folded value is not (42_checksum.md R169). -/
theorem checksum_ne_allOnes : c ≠ 0xFFFF#16 := by
  have hval := checksum_toNat hc
  have hsum := closedSum_ge en q
  have hpos := (foldAll_eq_zero_iff (closedSum en q)).not.mpr (by omega)
  rintro rfl
  rw [BitVec.toNat_ofNat] at hval
  omega

theorem checksum_eq_zero_iff : c = 0x0000#16 ↔ foldAll (closedSum en q) = 0xFFFF := by
  have hle := foldAll_le (closedSum en q)
  rw [← BitVec.toNat_inj, checksum_toNat hc, BitVec.toNat_ofNat]
  omega

end

/-- Settles O43: the folded sum of a configuration takes every value but 0. -/
theorem checksumIsNeverAllOnes : Obligations.ChecksumIsNeverAllOnes := by
  refine ⟨fun p en q c hc => ⟨checksum_ne_allOnes hc, checksum_eq_zero_iff hc⟩, fun p c hne => ?reached,
    fun s hi => ?state⟩
  case reached =>
    have hlt := c.isLt
    have hne' : c.toNat ≠ 0xFFFF := fun h => hne (BitVec.eq_of_toNat_eq h)
    obtain ⟨q, hq⟩ := exists_foldAll_closedSum (v := 0xFFFF - c.toNat) (by omega) (by omega)
    refine ⟨0x00#8, q, ?_⟩
    rw [checksumOf_paddedFields]
    congr 1
    apply BitVec.eq_of_toNat_eq
    rw [toNat_not_ofNat_foldAll, hq]
    omega
  case state =>
    have hcsum := hi.checksum
    cases hph : s.ph <;> rw [hph] at hcsum
    case append => exact checksum_ne_allOnes hcsum
    case done => exact checksum_ne_allOnes hcsum
    all_goals
      rw [hcsum]
      decide

end Sys2Proof.Machine
end

section
/-! Nothing persists across builds (42_checksum.md R167, 10_state.md R33): a build without further requests reaches `DONE`
under any schedule of stalls and reads, and there the invariant leaves only the configuration open. -/

namespace Sys2Proof.Machine

/-- What a step without a request can do: a `READ` or a stall leaves the block as it is, and otherwise the step performs
the operation of the phase. -/
theorem step_noRequest_cases {s : State} {x : Stimulus} {rest : List Stimulus} (hin : s.inputs = x :: rest)
    (hreq : x.noRequest = true) :
    (x.proceeds = false ∧ ∃ t, step s = .next t ∧ t.toBlock = s.toBlock ∧ t.params = s.params ∧ t.inputs = rest) ∨
      step s = phaseOperation (s.setInputs rest) := by
  cases x with
  | sample a => exact .inl ⟨rfl, _, step_sample hin, rfl, rfl, rfl⟩
  | step p =>
    obtain ⟨hr, hs⟩ : p.rst = false ∧ p.start = false := by simpa [Stimulus.noRequest] using hreq
    by_cases hw : s.stallsOn p = true
    · obtain ⟨⟨hstall, -⟩, -⟩ : (p.stall = true ∧ s.busyO = true) ∧ p.rst = false := by
        simpa [State.stallsOn] using hw
      exact .inl ⟨by simp [Stimulus.proceeds, hstall], _, step_stall hin hw, rfl, rfl, rfl⟩
    · exact .inr (step_phase hin hr (by simp [hs]) (by simpa using hw))

theorem stepsToDone_congr {n : Nat} {s t : State} (hb : t.toBlock = s.toBlock) : stepsToDone n t = stepsToDone n s := by
  simp only [stepsToDone, hb]

/-- The block is in a build of this configuration, or has just finished one. -/
structure InBuildOf (p : Config.Params) (en : BitVec 8) (q : Quanta) (s : State) : Prop where
  inBuild : InBuild (closedSum en q) s
  params : s.params = p
  en : s.en = en
  q : s.q = q

namespace InBuildOf

variable {p : Config.Params} {en : BitVec 8} {q : Quanta} {s t : State}

theorem congr (h : InBuildOf p en q s) (hb : t.toBlock = s.toBlock) (hp : t.params = s.params) :
    InBuildOf p en q t := by
  obtain ⟨hph, hen, hq, -⟩ := State.sameRegisters_fields hb
  refine ⟨⟨h.inBuild.inv.congr hb.symm hp.symm, hph ▸ h.inBuild.notIdle, ?_⟩, hp.trans h.params, hen.trans h.en,
    hq.trans h.q⟩
  rw [hp, hen, hq]
  exact h.inBuild.sum

/-- The operation of the phase brings `DONE` one step nearer, where it has not been reached. -/
theorem of_phaseOperation (h : InBuildOf p en q s) (ht : phaseOperation s = .next t) :
    InBuildOf p en q t ∧ stepsToDone (closedSum en q) t = stepsToDone (closedSum en q) s - 1 := by
  cases hb : s.busyO with
  | true =>
    obtain ⟨hbuild, hsteps⟩ := h.inBuild.of_phaseOperation hb ht
    obtain ⟨hen, hq⟩ := phaseOperation_config ht
    obtain ⟨hp, -⟩ := phaseOperation_sameModelFields ht
    exact ⟨⟨hbuild, hp.symm.trans h.params, hen.trans h.en, hq.trans h.q⟩, by omega⟩
  | false =>
    rw [phaseOperation_of_waiting ((busyO_eq_false_iff s).mp hb)] at ht
    cases ht
    have hzero : ¬ 0 < stepsToDone (closedSum en q) s := by simp [← h.inBuild.busyO_iff_stepsToDone, hb]
    exact ⟨h, by omega⟩

/-- A step without a request goes on with the build, and where it proceeds it brings `DONE` nearer. -/
theorem exists_step (h : InBuildOf p en q s) {x : Stimulus} {rest : List Stimulus} (hin : s.inputs = x :: rest)
    (hreq : x.noRequest = true) :
    ∃ t, step s = .next t ∧ InBuildOf p en q t ∧ t.inputs = rest ∧
      stepsToDone (closedSum en q) t ≤ stepsToDone (closedSum en q) s - if x.proceeds then 1 else 0 := by
  rcases step_noRequest_cases hin hreq with ⟨hx, t, ht, hb, hp, hint⟩ | hstep
  · refine ⟨t, ht, h.congr hb hp, hint, ?_⟩
    rw [stepsToDone_congr hb, hx]
    exact Nat.le_refl _
  · obtain ⟨t, ht⟩ := exists_phaseOperation (s.setInputs rest)
    obtain ⟨hbuild, hsteps⟩ := (h.congr (t := s.setInputs rest) rfl rfl).of_phaseOperation ht
    obtain ⟨-, hint, -⟩ := phaseOperation_sameModelFields ht
    refine ⟨t, hstep.trans ht, hbuild, hint.symm, ?_⟩
    rw [hsteps, stepsToDone_congr (s.setInputs_toBlock rest)]
    split <;> omega

/-- Over the coming stimuli, each step that proceeds brings `DONE` nearer. -/
theorem exists_runSteps (h : InBuildOf p en q s) (hreq : ∀ x ∈ s.inputs, x.noRequest = true) :
    ∃ t, runSteps s.inputs.length s = .next t ∧ InBuildOf p en q t ∧
      stepsToDone (closedSum en q) t ≤
        stepsToDone (closedSum en q) s - (s.inputs.filter Stimulus.proceeds).length := by
  induction hin : s.inputs generalizing s with
  | nil => exact ⟨s, rfl, h, Nat.le_refl _⟩
  | cons x rest ih =>
    obtain ⟨u, hu, hbuild, huin, hsteps⟩ := h.exists_step hin (hreq x (by simp [hin]))
    obtain ⟨t, ht, htbuild, htsteps⟩ := ih hbuild (fun y hy => hreq y (by simp [hin, ← huin, hy])) huin
    refine ⟨t, (runSteps_succ hu).trans ht, htbuild, ?_⟩
    cases hx : x.proceeds with
    | true =>
      rw [hx, if_pos rfl] at hsteps
      rw [List.filter_cons_of_pos hx, List.length_cons]
      omega
    | false =>
      rw [hx, if_neg Bool.false_ne_true] at hsteps
      rw [List.filter_cons_of_neg (Bool.eq_false_iff.mp hx)]
      omega

/-- An accepted `START` and the coming stimuli, eight of which proceed, end in `DONE`: a build has at most eight
operations. -/
theorem exists_runSteps_done {s : State} {x : StepInput} {rest : List Stimulus} (hph : s.ph = .idle ∨ s.ph = .done)
    (hin : s.inputs = .step x :: rest) (hr : x.rst = false) (hs : x.start = true)
    (hreq : ∀ y ∈ rest, y.noRequest = true) (hlen : 8 ≤ (rest.filter Stimulus.proceeds).length) :
    ∃ t, runSteps (1 + rest.length) s = .next t ∧ InBuildOf s.params x.enable x.quantum t ∧ t.ph = .done := by
  obtain ⟨u, hu, hbuild, huin, hsteps⟩ := InBuild.of_step_start hph hin hr hs (wordSum_paddedFields _ _ _)
  have hconfig : u.params = s.params ∧ u.en = x.enable ∧ u.q = x.quantum := by
    rw [step_start hin hr hs ((acceptsStart_iff s).mpr hph)] at hu
    cases hu
    exact ⟨rfl, rfl, rfl⟩
  obtain ⟨hp, hen, hq⟩ := hconfig
  obtain ⟨t, ht, htbuild, htsteps⟩ := exists_runSteps ⟨hbuild, hp, hen, hq⟩ (huin ▸ hreq)
  rw [huin] at ht htsteps
  have hfolds := foldsFrom_le_two (closedSum x.enable x.quantum)
  refine ⟨t, ?_, htbuild, (stepsToDone_eq_zero_iff (closedSum x.enable x.quantum) t).mp (by omega)⟩
  rw [Nat.add_comm, runSteps_succ hu, ht]

/-! ## What `DONE` leaves open: nothing but the configuration -/

section
variable (h : InBuildOf p en q s) (hd : s.ph = .done)
include h hd

theorem wp_of_done : s.wp = BitVec.ofNat 7 p.wireLen := by
  have hwp : s.wp.toNat = s.params.wireLen := h.inBuild.inv.wp_of_phase hd
  rw [← h.params, ← hwp, BitVec.ofNat_toNat, BitVec.setWidth_eq]

theorem acc_of_done : s.acc = BitVec.ofNat 32 (foldAll (closedSum en q)) := by
  have hacc := h.inBuild.inv.accumulator _ h.inBuild.sum
  rw [hd] at hacc
  have hacc : s.acc.toNat = foldAll (closedSum en q) := hacc
  rw [← hacc, BitVec.ofNat_toNat, BitVec.setWidth_eq]

theorem csum_of_done : checksumOf (paddedFields p en q) = some s.csum := by
  have hcsum := h.inBuild.inv.checksum
  rwa [hd, h.params, h.en, h.q] at hcsum

theorem load_of_done (k : Nat) :
    Memory.load s.fb k = (paddedFields p en q ++ trailer p.csumOrder s.csum)[k]? := by
  obtain ⟨w, hw, hload⟩ := h.inBuild.inv.load_of_done hd
  rw [h.params, h.en, h.q, wireFrame_of_checksum (h.csum_of_done hd)] at hw
  rw [hload, ← Option.some.inj hw]

theorem rdValidO_of_done (a : BitVec 6) : s.rdValidO a = decide (a.toNat < p.wireLen) := by
  rw [State.rdValidO, (doneO_iff s).mpr hd, Bool.true_and, h.params]

end

section
variable {s' : State} (h : InBuildOf p en q s) (h' : InBuildOf p en q s') (hd : s.ph = .done) (hd' : s'.ph = .done)
include h h' hd hd'

theorem csum_eq_of_done : s.csum = s'.csum :=
  Option.some.inj ((h.csum_of_done hd).symm.trans (h'.csum_of_done hd'))

theorem load_eq_of_done (k : Nat) : Memory.load s.fb k = Memory.load s'.fb k := by
  rw [h.load_of_done hd, h'.load_of_done hd', h.csum_eq_of_done h' hd hd']

theorem rdDataO_eq_of_done {a : BitVec 6} (hv : s.rdValidO a = true) : s.rdDataO a = s'.rdDataO a := by
  have hv' : s'.rdValidO a = true := by rwa [h'.rdValidO_of_done hd', ← h.rdValidO_of_done hd]
  obtain ⟨w, hw, hbyte⟩ := h.inBuild.inv.wireFrame_getElem?_of_valid hv
  obtain ⟨w', hw', hbyte'⟩ := h'.inBuild.inv.wireFrame_getElem?_of_valid hv'
  rw [h.params, h.en, h.q] at hw
  rw [h'.params, h'.en, h'.q, hw] at hw'
  rw [← Option.some.inj hw', hbyte] at hbyte'
  exact Option.some.inj hbyte'

end

end InBuildOf

/-- Settles O35: both builds end in `DONE` of the one configuration. -/
theorem nothingPersistsAcrossBuilds : Obligations.NothingPersistsAcrossBuilds := by
  intro s₁ s₂ p₁ p₂ rest₁ rest₂ t₁ t₂ hp hen hq hph₁ hph₂ hin₁ hin₂ hr₁ hr₂ hs₁ hs₂ hreq₁ hreq₂ hlen₁ hlen₂ ht₁ ht₂
  obtain ⟨u₁, hu₁, h₁, hd₁⟩ := InBuildOf.exists_runSteps_done hph₁ hin₁ hr₁ hs₁ hreq₁ hlen₁
  obtain ⟨u₂, hu₂, h₂, hd₂⟩ := InBuildOf.exists_runSteps_done hph₂ hin₂ hr₂ hs₂ hreq₂ hlen₂
  obtain rfl : u₁ = t₁ := Host.Outcome.next.inj (hu₁.symm.trans ht₁)
  obtain rfl : u₂ = t₂ := Host.Outcome.next.inj (hu₂.symm.trans ht₂)
  rw [← hp, ← hen, ← hq] at h₂
  refine ⟨hd₁.trans hd₂.symm, h₁.en.trans h₂.en.symm, h₁.q.trans h₂.q.symm,
    (h₁.wp_of_done hd₁).trans (h₂.wp_of_done hd₂).symm, (h₁.acc_of_done hd₁).trans (h₂.acc_of_done hd₂).symm,
    h₁.csum_eq_of_done h₂ hd₁ hd₂, fun k _ => h₁.load_eq_of_done h₂ hd₁ hd₂ k, fun a => ?valid,
    fun a => h₁.rdDataO_eq_of_done h₂ hd₁ hd₂⟩
  case valid => rw [h₁.rdValidO_of_done hd₁, h₂.rdValidO_of_done hd₂]

end Sys2Proof.Machine
end

section
/-! The padder (43_padder.md R180) and the bytes of a frame that no configuration changes (R182, 30_encoding.md R94). -/

namespace Sys2Proof.Machine

section
variable {s t : State} (ht : execPad s = .next t) {k : Nat}
include ht

/-- `PAD` puts `PAD_LEN` zero bytes at 34 (43_padder.md R180). -/
theorem execPad_load_of_inside (hk : 34 ≤ k) (hk' : k < 34 + s.params.padLen) : Memory.load t.fb k = some 0x00#8 := by
  obtain ⟨-, -, hfb, -⟩ := execPad_spec ht
  rw [hfb, Memory.load_storeBytes_inside _ _ _ _ hk (by rwa [zeros_length])]
  exact List.getElem?_replicate_of_lt (by omega)

/-- `PAD` leaves the bytes before and behind the padding (43_padder.md R180). -/
theorem execPad_load_of_outside (hk : k < 34 ∨ 34 + s.params.padLen ≤ k) :
    Memory.load t.fb k = Memory.load s.fb k := by
  obtain ⟨-, -, hfb, -⟩ := execPad_spec ht
  rw [hfb, Memory.load_storeBytes_outside _ _ _ _ (by rwa [zeros_length])]

/-- `WP` holds `PAD_TARGET` in full: 7 bits are enough for it (43_padder.md R183). -/
theorem execPad_wp_toNat : t.wp.toNat = s.params.padTarget := by
  obtain ⟨-, hwp, -⟩ := execPad_spec ht
  rw [hwp, BitVec.toNat_ofNat, Nat.mod_eq_of_lt (padTarget_lt s.params)]

end

/-- Settles O17: the buffer byte by byte and the pointer's range; `execPad_spec` has the other registers. -/
theorem padWritesZeros : Obligations.PadWritesZeros := by
  intro s
  have ht := execPad_eq s
  obtain ⟨hph, -, -, hregs⟩ := execPad_spec ht
  exact ⟨_, ht, fun k => execPad_load_of_inside ht, fun k => execPad_load_of_outside ht, execPad_wp_toNat ht, hph,
    rfl, hregs⟩

namespace Inv

variable {s : State} (hi : Inv s) {k : Nat}
include hi

/-- Once `WP` has passed FrameFields, the buffer begins with them. -/
theorem load_frameFields (hwp : 34 ≤ s.wp.toNat) (hk : k < 34) : Memory.load s.fb k = (frameFields s.en s.q)[k]? :=
  (hi.frameSoFar k (by omega)).trans (frame_getElem?_of_lt s.params s.en s.q hk _)

/-- Once `WP` has passed the padding, the padding is zero. -/
theorem load_pad (hwp : 34 + s.params.padLen ≤ s.wp.toNat) (hk : 34 ≤ k) (hk' : k < 34 + s.params.padLen) :
    Memory.load s.fb k = some 0x00#8 :=
  (hi.frameSoFar k (by omega)).trans (frame_getElem?_pad s.params s.en s.q hk hk' _)

end Inv

/-- Settles O45: in `DONE` the write pointer has passed FrameFields and the padding, whose bytes at these offsets do not
depend on the configuration. -/
theorem reservedBytesAreConstantInDone : Obligations.ReservedBytesAreConstantInDone := by
  intro s hi hph
  have hwp : s.wp.toNat = 34 + s.params.padLen + 2 := hi.wp_of_phase hph
  have hfields : ∀ k, k < 34 → Memory.load s.fb k = (frameFields s.en s.q)[k]? :=
    fun k hk => hi.load_frameFields (by omega) hk
  exact ⟨fun k => hi.load_pad (by omega), hfields 16 (by decide), hfields 12 (by decide), hfields 13 (by decide),
    hfields 14 (by decide), hfields 15 (by decide)⟩

end Sys2Proof.Machine
end

section
/-! The trailer (44_wireframe.md R190) and a whole build (R191, R193): while the block is busy a step without `RESET` uses up
one of the operations before `DONE` or leaves the block as it is, and in `DONE` only a request changes it. -/

namespace Sys2Proof.Machine

section
variable {s t : State} (ht : execAppend s = .next t) {k : Nat}
include ht

/-- `APPEND` puts the trailer at `PAD_TARGET` (44_wireframe.md R190). -/
theorem execAppend_load_trailer {j : Nat} {b : Byte} (hb : (trailer s.params.csumOrder s.csum)[j]? = some b) :
    Memory.load t.fb (s.params.padTarget + j) = some b := by
  obtain ⟨hj, -⟩ := List.getElem?_eq_some_iff.mp hb
  obtain ⟨-, -, hfb, -⟩ := execAppend_spec ht
  rw [hfb, Memory.load_storeBytes_inside _ _ _ _ (Nat.le_add_right _ j) (Nat.add_lt_add_left hj _),
    Nat.add_sub_cancel_left, hb]

/-- `APPEND` leaves the bytes before and behind the trailer (44_wireframe.md R190). -/
theorem execAppend_load_of_outside (hk : k < s.params.padTarget ∨ s.params.padTarget + 2 ≤ k) :
    Memory.load t.fb k = Memory.load s.fb k := by
  obtain ⟨-, -, hfb, -⟩ := execAppend_spec ht
  rw [hfb, Memory.load_storeBytes_outside _ _ _ _ (by rwa [trailer_length])]

/-- `WP` holds `WIRE_LEN` in full: 7 bits are enough for it (43_padder.md R183). -/
theorem execAppend_wp_toNat : t.wp.toNat = s.params.wireLen := by
  obtain ⟨-, hwp, -⟩ := execAppend_spec ht
  rw [hwp, BitVec.toNat_ofNat, Nat.mod_eq_of_lt (wireLen_lt s.params)]

end

/-- Settles O21: the two bytes of the trailer in either order; `execAppend_spec` has the other registers. -/
theorem appendWritesTheTrailer : Obligations.AppendWritesTheTrailer := by
  intro s
  have ht := execAppend_eq s
  obtain ⟨hph, -, -, hregs⟩ := execAppend_spec ht
  refine ⟨_, ht, fun hlow => ?low, fun hhigh => ?high, fun k => execAppend_load_of_outside ht, execAppend_wp_toNat ht,
    hph, rfl, rfl, hregs⟩
  case low =>
    exact ⟨execAppend_load_trailer ht (j := 0) (by rw [hlow]; rfl), execAppend_load_trailer ht (by rw [hlow]; rfl)⟩
  case high =>
    exact ⟨execAppend_load_trailer ht (j := 0) (by rw [hhigh]; rfl), execAppend_load_trailer ht (by rw [hhigh]; rfl)⟩

/-- Settles O31: a step out of `DONE` that changes the block has a request, which is `RESET` or else an accepted
`START`. -/
theorem doneIsImmutable : Obligations.DoneIsImmutable := by
  intro s t hph ht
  rcases step_of_done hph ht with ⟨p, rest, hin, hreq⟩ | ⟨hb, -⟩
  · by_cases hr : p.rst = true
    · rw [step_reset hin hr] at ht
      cases ht
      exact .inr (.inl ⟨p, rest, hin, hr, rfl⟩)
    · have hr' : p.rst = false := Bool.eq_false_iff.mpr hr
      have hs : p.start = true := hreq.resolve_left hr
      rw [step_start hin hr' hs ((acceptsStart_iff s).mpr (.inr hph))] at ht
      cases ht
      exact .inr (.inr ⟨p, rest, hin, hr', hs, rfl⟩)
  · exact .inl hb.symm

/-- A run in two parts. -/
theorem runSteps_add {k : Nat} {s t : State} (ht : runSteps k s = .next t) (j : Nat) :
    runSteps (k + j) s = runSteps j t := by
  induction k generalizing s with
  | zero =>
    cases ht
    rw [Nat.zero_add]
  | succ k ih =>
    obtain ⟨u, hu⟩ := exists_step s
    rw [Nat.add_right_comm, runSteps_succ hu]
    exact ih ((runSteps_succ hu).symm.trans ht)

/-- What a busy step without `RESET` can do, a dropped `START` among them: a `READ` or a stall leaves the block as it is,
and otherwise the step proceeds with the operation of the phase. -/
theorem step_busy_cases {s : State} (hb : s.busyO = true) {x : Stimulus} {rest : List Stimulus}
    (hin : s.inputs = x :: rest) (hx : x.noReset = true) :
    (x.proceeds = false ∧ ∃ t, step s = .next t ∧ t.toBlock = s.toBlock ∧ t.params = s.params ∧ t.inputs = rest) ∨
      (x.proceeds = true ∧ step s = phaseOperation (s.setInputs rest)) := by
  cases x with
  | sample a => exact .inl ⟨rfl, _, step_sample hin, rfl, rfl, rfl⟩
  | step p =>
    have hr : p.rst = false := by simpa [Stimulus.noReset] using hx
    have hstep := step_of_busy hb hin hr
    cases hw : p.stall with
    | true => exact .inl ⟨by simp [Stimulus.proceeds, hw], _, hstep.trans (if_pos hw), rfl, rfl, rfl⟩
    | false => exact .inr ⟨by simp [Stimulus.proceeds, hw], hstep.trans (if_neg (Bool.eq_false_iff.mp hw))⟩

namespace InBuildOf

variable {p : Config.Params} {en : BitVec 8} {q : Quanta} {s : State}

/-- An accepted `START` begins a build of its operands, with all the operations before it. -/
theorem of_step_start {x : StepInput} {rest : List Stimulus} (hph : s.ph = .idle ∨ s.ph = .done)
    (hin : s.inputs = .step x :: rest) (hr : x.rst = false) (hs : x.start = true) :
    ∃ u, step s = .next u ∧ InBuildOf s.params x.enable x.quantum u ∧ u.inputs = rest ∧
      stepsToDone (closedSum x.enable x.quantum) u = 6 + foldsFrom (closedSum x.enable x.quantum) := by
  obtain ⟨u, hu, hbuild, hsteps⟩ := InBuild.of_step_start hph hin hr hs (wordSum_paddedFields _ _ _)
  obtain rfl := Host.Outcome.next.inj ((step_start hin hr hs ((acceptsStart_iff s).mpr hph)).symm.trans hu)
  exact ⟨_, hu, ⟨hbuild, rfl, rfl, rfl⟩, hsteps⟩

/-- While the block is busy, a step without `RESET` brings `DONE` one operation nearer exactly where it proceeds. -/
theorem exists_step_of_busy (h : InBuildOf p en q s) (hb : s.busyO = true) {x : Stimulus} {rest : List Stimulus}
    (hin : s.inputs = x :: rest) (hx : x.noReset = true) :
    ∃ t, step s = .next t ∧ InBuildOf p en q t ∧ t.inputs = rest ∧
      stepsToDone (closedSum en q) s = stepsToDone (closedSum en q) t + if x.proceeds then 1 else 0 := by
  rcases step_busy_cases hb hin hx with ⟨hw, t, ht, hbt, hpt, hint⟩ | ⟨hw, hstep⟩
  · refine ⟨t, ht, h.congr hbt hpt, hint, ?_⟩
    rw [stepsToDone_congr hbt, hw]
    rfl
  · obtain ⟨t, ht⟩ := exists_phaseOperation (s.setInputs rest)
    obtain ⟨hbuild, hsteps⟩ := (h.congr (t := s.setInputs rest) rfl rfl).of_phaseOperation ht
    obtain ⟨-, hint, -⟩ := phaseOperation_sameModelFields ht
    have hpos := h.inBuild.busyO_iff_stepsToDone.mp hb
    refine ⟨t, hstep.trans ht, hbuild, hint.symm, ?_⟩
    rw [hsteps, stepsToDone_congr (s.setInputs_toBlock rest), if_pos hw]
    omega

/-- Over stimuli without `RESET`, too few of which proceed to reach `DONE`, each that proceeds brings it one operation nearer. -/
theorem exists_runSteps_of_lt (h : InBuildOf p en q s) {pre rest : List Stimulus} (hin : s.inputs = pre ++ rest)
    (hpre : ∀ y ∈ pre, y.noReset = true) (hlt : pre.countP Stimulus.proceeds < stepsToDone (closedSum en q) s) :
    ∃ t, runSteps pre.length s = .next t ∧ InBuildOf p en q t ∧ t.inputs = rest ∧
      stepsToDone (closedSum en q) s = stepsToDone (closedSum en q) t + pre.countP Stimulus.proceeds := by
  induction pre generalizing s with
  | nil => exact ⟨s, rfl, h, hin, rfl⟩
  | cons x pre ih =>
    have hb : s.busyO = true := h.inBuild.busyO_iff_stepsToDone.mpr (by omega)
    rw [List.countP_cons] at hlt ⊢
    obtain ⟨u, hu, hbuild, huin, hsteps⟩ := h.exists_step_of_busy hb hin (hpre x List.mem_cons_self)
    obtain ⟨t, ht, htbuild, htin, htsteps⟩ :=
      ih hbuild huin (fun y hy => hpre y (List.mem_cons_of_mem x hy)) (by omega)
    exact ⟨t, (runSteps_succ hu).trans ht, htbuild, htin, by omega⟩

/-- In `DONE` the buffer is read as the frame. -/
theorem memRead_of_done (h : InBuildOf p en q s) (hd : s.ph = .done) :
    s.memRead 0 p.wireLen = paddedFields p en q ++ trailer p.csumOrder s.csum := by
  rw [← frame_length p en q s.csum]
  refine State.memRead_eq_of_load fun k _ => ?_
  rw [Nat.zero_add, h.load_of_done hd]

end InBuildOf

section
variable {s : State} {x : StepInput} {pre rest : List Stimulus} (hph : s.ph = .idle ∨ s.ph = .done)
  (hin : s.inputs = .step x :: (pre ++ rest)) (hr : x.rst = false) (hs : x.start = true)
  (hpre : ∀ y ∈ pre, y.noReset = true)
include hph hin hr hs hpre

/-- After an accepted `START` and stimuli without `RESET` of which at most `5 + n` proceed, where `n` is the number of
folds, the build is under way. -/
theorem exists_runSteps_of_start
    (hcount : pre.countP Stimulus.proceeds ≤ 5 + foldsFrom (closedSum x.enable x.quantum)) :
    ∃ t, runSteps (1 + pre.length) s = .next t ∧ InBuildOf s.params x.enable x.quantum t ∧ t.inputs = rest ∧
      6 + foldsFrom (closedSum x.enable x.quantum) =
        stepsToDone (closedSum x.enable x.quantum) t + pre.countP Stimulus.proceeds := by
  obtain ⟨u, hu, hbuild, huin, hsteps⟩ := InBuildOf.of_step_start hph hin hr hs
  obtain ⟨t, ht, htbuild, htin, htsteps⟩ := hbuild.exists_runSteps_of_lt huin hpre (by omega)
  exact ⟨t, by rw [Nat.add_comm, runSteps_succ hu, ht], htbuild, htin, by omega⟩

/-- Up to the last of these stimuli the block is busy and not done. -/
theorem runSteps_busy_of_start (hcount : pre.countP Stimulus.proceeds = 5 + foldsFrom (closedSum x.enable x.quantum))
    {i : Nat} (hi : i ≤ pre.length) : ∃ u, runSteps (1 + i) s = .next u ∧ u.busyO = true ∧ u.doneO = false := by
  have hsplit : s.inputs = .step x :: (pre.take i ++ (pre.drop i ++ rest)) := by
    rw [← List.append_assoc, List.take_append_drop, hin]
  have hle : (pre.take i).countP Stimulus.proceeds ≤ pre.countP Stimulus.proceeds := (List.take_sublist i pre).countP_le
  obtain ⟨u, hu, hbuild, -, hsteps⟩ := exists_runSteps_of_start hph hsplit hr hs
    (fun y hy => hpre y (List.mem_of_mem_take hy)) (hcount ▸ hle)
  rw [List.length_take, Nat.min_eq_left hi] at hu
  have hpos : 0 < stepsToDone (closedSum x.enable x.quantum) u := by omega
  exact ⟨u, hu, hbuild.inBuild.busyO_iff_stepsToDone.mpr hpos,
    Bool.eq_false_iff.mpr fun hd => hpos.ne' ((doneO_iff_stepsToDone _ u).mp hd)⟩

end

/-- An accepted `START`, stimuli without `RESET` of which exactly `5 + n` proceed, one more step that proceeds and then any
number of steps without a request end in `DONE` of the configuration. -/
theorem exists_runSteps_done_of_start {s : State} {x y : StepInput} {pre rest : List Stimulus}
    (hph : s.ph = .idle ∨ s.ph = .done) (hin : s.inputs = .step x :: (pre ++ .step y :: rest)) (hr : x.rst = false)
    (hs : x.start = true) (hpre : ∀ z ∈ pre, z.noReset = true)
    (hcount : pre.countP Stimulus.proceeds = 5 + foldsFrom (closedSum x.enable x.quantum))
    (hry : y.rst = false) (hwy : y.stall = false) (hrest : ∀ z ∈ rest, z.noRequest = true) (j : Nat) :
    ∃ t, runSteps (1 + (pre.length + 1 + j)) s = .next t ∧ InBuildOf s.params x.enable x.quantum t ∧ t.ph = .done := by
  obtain ⟨u, hu, hubuild, huin, husteps⟩ := exists_runSteps_of_start hph hin hr hs hpre hcount.le
  have hb : u.busyO = true := hubuild.inBuild.busyO_iff_stepsToDone.mpr (by omega)
  obtain ⟨v, hv, hvbuild, hvin, hvsteps⟩ := hubuild.exists_step_of_busy hb huin (by simp [Stimulus.noReset, hry])
  rw [if_pos (by simp [Stimulus.proceeds, hwy])] at hvsteps
  have hvd : v.ph = .done := (stepsToDone_eq_zero_iff (closedSum x.enable x.quantum) v).mp (by omega)
  obtain ⟨t, ht, hbt, hpt⟩ := runSteps_of_done hvd (hvin ▸ hrest) j
  refine ⟨t, ?_, hvbuild.congr hbt.symm hpt, (congrArg Block.ph hbt).symm.trans hvd⟩
  calc runSteps (1 + (pre.length + 1 + j)) s = runSteps (1 + pre.length + (j + 1)) s := by congr 1; omega
    _ = runSteps (j + 1) u := runSteps_add hu (j + 1)
    _ = runSteps j v := runSteps_succ hv
    _ = .next t := ht

/-- Settles O33: the step that proceeds is the last of the build's `6 + n` operations, and `DONE` of the configuration has
the frame. -/
theorem wholeBuildIsTheWireFrame : Obligations.WholeBuildIsTheWireFrame := by
  intro s p x pre rest n j hph hin hr hs hn hpre hcount hrx hwx hrest
  obtain rfl : closedSum p.enable p.quantum = n := Option.some.inj ((wordSum_paddedFields _ _ _).symm.trans hn)
  rw [← List.countP_eq_length_filter] at hcount
  obtain ⟨t, ht, hbuild, hd⟩ := exists_runSteps_done_of_start hph hin hr hs hpre hcount hrx hwx hrest j
  have hc := hbuild.csum_of_done hd
  have hwp : t.wp.toNat = t.params.wireLen := hbuild.inBuild.inv.wp_of_phase hd
  exact ⟨fun i hi => runSteps_busy_of_start hph hin hr hs hpre hcount hi,
    t, _, t.csum, ht, wireFrame_of_checksum hc, hc, hd, hbuild.en, hbuild.q, hbuild.params ▸ hwp, rfl,
    hbuild.memRead_of_done hd, fun k _ => hbuild.load_of_done hd k⟩

end Sys2Proof.Machine
end

section
/-! No operation and no step faults or is refused (60_exceptions.md R210). -/

namespace Sys2Proof.Machine

/-- `START` goes on where it is accepted and where it is dropped for the operation of the phase. -/
theorem exists_execStart (en : BitVec 8) (q : Quanta) (s : State) : ∃ t, execStart en q s = .next t := by
  cases h : s.acceptsStart with
  | true => exact ⟨_, execStart_accepted h⟩
  | false =>
    rw [execStart_dropped h]
    exact exists_phaseOperation s

theorem exists_execFold (s : State) : ∃ t, execFold s = .next t := by
  rcases Nat.lt_or_ge 0xFFFF s.acc.toNat with h | h
  · exact ⟨_, execFold_folds h⟩
  · exact ⟨_, execFold_leaves h⟩

/-- Only `START` and `FOLD` choose between two next states; each other operation names its one. -/
theorem exists_exec (i : Instr) (s : State) : ∃ t, exec i s = .next t := by
  cases i with
  | reset b => exact ⟨_, execReset_eq s⟩
  | start en q => exact exists_execStart en q s
  | read a => exact ⟨_, execRead_eq a s⟩
  | idle => exact ⟨s, rfl⟩
  | build => exact ⟨_, execBuild_eq s⟩
  | pad => exact ⟨_, execPad_eq s⟩
  | sum => exact ⟨_, execSum_eq s⟩
  | fold => exact exists_execFold s
  | cpl => exact ⟨_, execCpl_eq s⟩
  | append => exact ⟨_, execAppend_eq s⟩
  | done => exact ⟨s, rfl⟩

/-- Settles O3, operation by operation, and for a step by the six things it can be. -/
theorem everyOperationAndStepGoesOn : Obligations.EveryOperationAndStepGoesOn := ⟨exists_exec, exists_step⟩

end Sys2Proof.Machine
end

section
/-! When the configuration is sampled (10_state.md R22, R23, 70_reset_and_hazards.md R242). -/

namespace Sys2Proof.Machine

/-- A step on given ports that is no accepted `START` looks at `rst_i` and the stall flag only (R242). -/
theorem step_of_not_accepted {s : State} {p : StepInput} {rest : List Stimulus} (hin : s.inputs = .step p :: rest)
    (hno : ¬ (p.rst = false ∧ p.start = true ∧ (s.ph = .idle ∨ s.ph = .done))) :
    step s = if p.rst then .next (s.setInputs rest).enterReset
      else if s.stallsOn p then .next (s.setInputs rest) else phaseOperation (s.setInputs rest) := by
  split_ifs with hr hw
  · exact step_reset hin hr
  · exact step_stall hin hw
  · have hr : p.rst = false := Bool.eq_false_iff.mpr hr
    have hdrop : p.start = true → s.acceptsStart = false := fun hs =>
      Bool.eq_false_iff.mpr fun ha => hno ⟨hr, hs, (acceptsStart_iff s).mp ha⟩
    exact step_phase hin hr hdrop (Bool.eq_false_iff.mpr hw)

/-- Settles O25: the first part by the six things a step can be, the second because `enable_i` and `quantum_i` do not occur
in what a step does that is no accepted `START`. -/
theorem configurationIsSampledOnce : Obligations.ConfigurationIsSampledOnce := by
  refine ⟨fun s t ht => ?sampled, fun s p en q rest hin hno => ?ports⟩
  case sampled =>
    obtain ⟨-, h⟩ | ⟨a, rest, -, h⟩ | ⟨p, rest, hs, hr, h⟩ | ⟨p, rest, hs, hr, hst, ha, h⟩ | ⟨p, rest, -, -, -, h⟩ |
      ⟨p, rest, -, -, -, -, h⟩ := step_cases s <;> rw [h] at ht
    · exact .inl (phaseOperation_config ht)
    · cases ht
      exact .inl ⟨rfl, rfl⟩
    · cases ht
      exact .inr (.inl ⟨p, rest, hs, hr, rfl, rfl⟩)
    · cases ht
      exact .inr (.inr ⟨p, rest, hs, hr, hst, (acceptsStart_iff s).mp ha, rfl, rfl⟩)
    · cases ht
      exact .inl ⟨rfl, rfl⟩
    · exact .inl (phaseOperation_config (s := s.setInputs rest) ht)
  case ports =>
    rw [step_of_not_accepted hin hno,
      step_of_not_accepted (s := s.setInputs (.step { p with enable := en, quantum := q } :: rest)) rfl hno]
    rfl

end Sys2Proof.Machine
end
